-- ==== Sys2Proof/Word.lean ====
section
/-! DEFINITION. The word types of the machine (00_scope.md R7, R8) and the bounds of the signed ranges `S64` and `S32`. -/

namespace Sys2Proof

/-- A byte of the instruction buffer (R7, R40). -/
abbrev Byte := BitVec 8

/-- A register value: a 64-bit two's-complement pattern; `sval` of the spec is `BitVec.toInt` (R8, R20). -/
abbrev Word := BitVec 64

/-- `MIN64` of R8. -/
abbrev min64 : Int := -9223372036854775808

/-- `MAX64` of R8. -/
abbrev max64 : Int := 9223372036854775807

/-- `MIN32` of R8. -/
abbrev min32 : Int := -2147483648

/-- `MAX32` of R8. -/
abbrev max32 : Int := 2147483647

end Sys2Proof
end

