-- ==== Sys2Proof/Config.lean ====
section
/-! DEFINITION. What the spec leaves OPEN (00_scope.md R6): constants without a body, about which nothing can be proved, so
that every theorem holds whatever they are. -/

namespace Sys2Proof

/-- Which of the fifteen bytes 0x40 to 0x47 and 0x49 to 0x4F belong to `PREFIX_SET` besides 0x48: the OPEN parameter of R6,
R63 and D1 (log 1). It is asked only about those fifteen bytes. -/
opaque Config.otherPrefix : Byte → Bool

/-- The OPEN parameter `RESULT_SENTINEL` of R6 and R206, a signed 32-bit number (log 8). -/
opaque Config.resultSentinel : BitVec 32

/-- What a buffer offset below `N` that `Memory.cells` does not list reads as. It is a way of writing a buffer down, no
claim about the hardware: the host supplies every byte of the buffer (DESIGN CHOICE, log 4). -/
def Config.unlistedByte : Byte := 0

end Sys2Proof
end

