-- ==== Sys2Proof/Syntax.lean ====
section
/-! DEFINITION. The instructions, one constructor per row of spec/opcode_table.json, and the names the Decoder speaks in:
registers, opcodes by format, decode-fault reasons, instruction records. -/

namespace Sys2Proof

/-- The four registers (10_state.md R20). -/
inductive Reg where
  | A | B | C | D
deriving DecidableEq, Repr

/-- The five opcodes of format `OM`: an operand byte and no immediate (30_encoding.md R61, R70). -/
inductive OMOp where
  | movMR | movRM | add | sub | xor
deriving DecidableEq, Repr

/-- The two opcodes of format `OMI`, 81 and C7: an operand byte with a sub-selector, and an imm32 (R61, R70). -/
inductive OMIOp where
  | group1 | store
deriving DecidableEq, Repr

/-- The two opcodes of format `AI`, 05 and 2D: an imm32 on register A (R61, R70). -/
inductive AIOp where
  | adda | suba
deriving DecidableEq, Repr

/-- The thirteen opcodes, by format (R70, R71). -/
inductive Opcode where
  | oi (r : Reg)
  | om (k : OMOp)
  | omi (k : OMIOp)
  | ai (k : AIOp)
deriving DecidableEq, Repr

/-- The four reasons of a decode fault, DF1 to DF4 (60_exceptions.md R221). -/
inductive DecodeReason where
  | truncatedInput
  | unknownOpcode
  | unsupportedAddressingMode
  | truncatedImmediate
deriving DecidableEq, Repr

/-- The instructions. `pre` is the prefix byte where the row's prefix is optional, `p` the prefix byte where it is required;
`reg` and `rm` are the raw 3-bit codes of the operand byte's fields, which the Decoder does not validate (R66, R103). -/
inductive Instr where
  /-- A prefix byte `p` followed by a byte that is no opcode (R63, R93, R99; log 2). Before an opcode the prefix byte is a
  field of the instruction it belongs to. -/
  | w (p nxt : Byte)
  | loadiA (imm : BitVec 32)
  | loadiC (imm : BitVec 32)
  | loadiD (imm : BitVec 32)
  | loadiB (imm : BitVec 32)
  | loadi64A (p : Byte) (imm : BitVec 64)
  | loadi64C (p : Byte) (imm : BitVec 64)
  | loadi64D (p : Byte) (imm : BitVec 64)
  | loadi64B (p : Byte) (imm : BitVec 64)
  | movMR (pre : Option Byte) (reg rm : BitVec 3)
  | movRM (pre : Option Byte) (reg rm : BitVec 3)
  | add (pre : Option Byte) (reg rm : BitVec 3)
  | sub (pre : Option Byte) (reg rm : BitVec 3)
  | xor (pre : Option Byte) (reg rm : BitVec 3)
  | addi (pre : Option Byte) (rm : BitVec 3) (imm : BitVec 32)
  | subi (pre : Option Byte) (rm : BitVec 3) (imm : BitVec 32)
  | reserved81s1 (pre : Option Byte) (rm : BitVec 3) (imm : BitVec 32)
  | reserved81s2 (pre : Option Byte) (rm : BitVec 3) (imm : BitVec 32)
  | reserved81s3 (pre : Option Byte) (rm : BitVec 3) (imm : BitVec 32)
  | reserved81s4 (pre : Option Byte) (rm : BitVec 3) (imm : BitVec 32)
  | reserved81s6 (pre : Option Byte) (rm : BitVec 3) (imm : BitVec 32)
  | reserved81s7 (pre : Option Byte) (rm : BitVec 3) (imm : BitVec 32)
  | adda (pre : Option Byte) (imm : BitVec 32)
  | suba (pre : Option Byte) (imm : BitVec 32)
  | storei (pre : Option Byte) (rm : BitVec 3) (imm : BitVec 32)
  | reservedC7s1 (pre : Option Byte) (rm : BitVec 3) (imm : BitVec 32)
  | reservedC7s2 (pre : Option Byte) (rm : BitVec 3) (imm : BitVec 32)
  | reservedC7s3 (pre : Option Byte) (rm : BitVec 3) (imm : BitVec 32)
  | reservedC7s4 (pre : Option Byte) (rm : BitVec 3) (imm : BitVec 32)
  | reservedC7s5 (pre : Option Byte) (rm : BitVec 3) (imm : BitVec 32)
  | reservedC7s6 (pre : Option Byte) (rm : BitVec 3) (imm : BitVec 32)
  | reservedC7s7 (pre : Option Byte) (rm : BitVec 3) (imm : BitVec 32)
deriving DecidableEq, Repr

/-- What the bytes at the cursor are read as: an instruction, or a decode fault whose offset counts from the first of those
bytes (40_decoder.md R90, R98). -/
inductive Decoded where
  | instr (i : Instr)
  | fault (offset : Nat) (reason : DecodeReason)
deriving DecidableEq, Repr

/-- The instruction record that the Decoder hands to the CPU, with exactly the fields of 10_state.md R30: it holds no prefix. -/
structure Record where
  opcode : Byte
  m : Option Byte
  imm32 : Option (BitVec 32)
  imm64 : Option (BitVec 64)
  length : Nat
deriving DecidableEq, Repr

/-- What EXECUTE makes of a record (41_execute_common.md R112, R122, R126): an instruction, an opcode that is not mapped, or
a mapped opcode with fields that no Decoder produces. -/
inductive RecordReading where
  | instr (i : Instr)
  | unmapped
  | malformed
deriving DecidableEq, Repr

end Sys2Proof
end

