-- ==== Sys2Proof/Decode.lean ====
section
/-! DEFINITION. The decoder (40_decoder.md R90 to R104), total on any bytes, then the encoder (30_encoding.md R60 to R77) and
the instruction records (10_state.md R30, R31), all from the one opcode table of R70. -/

namespace Sys2Proof

/-- Membership in `PREFIX_SET` (R63): 0x48 always; the other bytes 0x40 to 0x4F as `Config.otherPrefix` says; no other byte
(log 1). -/
def isPrefix (b : Byte) : Bool :=
  b == 0x48#8 || (b.extractLsb' 4 4 == 4#4 && Config.otherPrefix b)

/-- The complete opcode map (R70). -/
def opcodeTable : List (Byte × Opcode) :=
  [(0xB8#8, .oi .A), (0xB9#8, .oi .C), (0xBA#8, .oi .D), (0xBB#8, .oi .B),
   (0x89#8, .om .movMR), (0x8B#8, .om .movRM),
   (0x01#8, .om .add), (0x29#8, .om .sub),
   (0x81#8, .omi .group1),
   (0x05#8, .ai .adda), (0x2D#8, .ai .suba),
   (0xC7#8, .omi .store),
   (0x31#8, .om .xor)]

/-- The lookup of R93: the opcode a byte stands for, if any. -/
def opcodeOf (b : Byte) : Option Opcode :=
  (opcodeTable.find? fun row => row.1 == b).map fun row => row.2

/-- The byte of an opcode (R70). -/
def Opcode.byte : Opcode → Byte
  | .oi .A => 0xB8
  | .oi .C => 0xB9
  | .oi .D => 0xBA
  | .oi .B => 0xBB
  | .om .movMR => 0x89
  | .om .movRM => 0x8B
  | .om .add => 0x01
  | .om .sub => 0x29
  | .om .xor => 0x31
  | .omi .group1 => 0x81
  | .omi .store => 0xC7
  | .ai .adda => 0x05
  | .ai .suba => 0x2D

/-- `m[7:6]`, the addressing-mode selector (R64). -/
def modField (m : Byte) : BitVec 2 := m.extractLsb' 6 2

/-- `m[5:3]`, a register code or the sub-selector (R64). -/
def regField (m : Byte) : BitVec 3 := m.extractLsb' 3 3

/-- `m[2:0]`, a register code (R64). -/
def rmField (m : Byte) : BitVec 3 := m.extractLsb' 0 3

/-- `MOD_DIRECT`, the direct-register pattern (R6, R65). -/
def modDirect : BitVec 2 := 3

/-- The operand byte with `mod` direct and the two given fields (R66). -/
def operandByte (reg rm : BitVec 3) : Byte := modDirect ++ reg ++ rm

/-- `MemRead(p, 4)` on the bytes from `p` on: little-endian, the first byte least significant; none where the buffer ends
too early (R42, R43, R67). -/
def readImm32 : List Byte → Option (BitVec 32)
  | b0 :: b1 :: b2 :: b3 :: _ => some (b3 ++ b2 ++ b1 ++ b0)
  | _ => none

/-- `MemRead(p, 8)` on the bytes from `p` on, little-endian (R42, R43, R68). -/
def readImm64 : List Byte → Option (BitVec 64)
  | b0 :: b1 :: b2 :: b3 :: b4 :: b5 :: b6 :: b7 :: _ =>
    some (b7 ++ b6 ++ b5 ++ b4 ++ b3 ++ b2 ++ b1 ++ b0)
  | _ => none

/-- The four bytes of an imm32, least significant first (R42). -/
def bytesOfImm32 (v : BitVec 32) : List Byte :=
  [v.extractLsb' 0 8, v.extractLsb' 8 8, v.extractLsb' 16 8, v.extractLsb' 24 8]

/-- The eight bytes of an imm64, least significant first (R42). -/
def bytesOfImm64 (v : BitVec 64) : List Byte :=
  [v.extractLsb' 0 8, v.extractLsb' 8 8, v.extractLsb' 16 8, v.extractLsb' 24 8,
   v.extractLsb' 32 8, v.extractLsb' 40 8, v.extractLsb' 48 8, v.extractLsb' 56 8]

/-- The 32-bit load of a register, by its row (R131 to R134). -/
def loadiOf (r : Reg) (imm : BitVec 32) : Instr :=
  match r with
  | .A => .loadiA imm
  | .C => .loadiC imm
  | .D => .loadiD imm
  | .B => .loadiB imm

/-- The 64-bit load of a register, by its row (R135 to R138). -/
def loadi64Of (p : Byte) (r : Reg) (imm : BitVec 64) : Instr :=
  match r with
  | .A => .loadi64A p imm
  | .C => .loadi64C p imm
  | .D => .loadi64D p imm
  | .B => .loadi64B p imm

/-- The instruction of a format `OM` opcode and its operand byte (R140, R141, R150, R151, R190). -/
def omInstr (k : OMOp) (pre : Option Byte) (m : Byte) : Instr :=
  match k with
  | .movMR => .movMR pre (regField m) (rmField m)
  | .movRM => .movRM pre (regField m) (rmField m)
  | .add => .add pre (regField m) (rmField m)
  | .sub => .sub pre (regField m) (rmField m)
  | .xor => .xor pre (regField m) (rmField m)

/-- The instruction of opcode 81 by its sub-selector (R73, R160 to R162). -/
def group1Instr (pre : Option Byte) (m : Byte) (imm : BitVec 32) : Instr :=
  if regField m = 0 then .addi pre (rmField m) imm
  else if regField m = 1 then .reserved81s1 pre (rmField m) imm
  else if regField m = 2 then .reserved81s2 pre (rmField m) imm
  else if regField m = 3 then .reserved81s3 pre (rmField m) imm
  else if regField m = 4 then .reserved81s4 pre (rmField m) imm
  else if regField m = 5 then .subi pre (rmField m) imm
  else if regField m = 6 then .reserved81s6 pre (rmField m) imm
  else .reserved81s7 pre (rmField m) imm

/-- The instruction of opcode C7 by its sub-selector (R73, R180, R181). -/
def storeInstr (pre : Option Byte) (m : Byte) (imm : BitVec 32) : Instr :=
  if regField m = 0 then .storei pre (rmField m) imm
  else if regField m = 1 then .reservedC7s1 pre (rmField m) imm
  else if regField m = 2 then .reservedC7s2 pre (rmField m) imm
  else if regField m = 3 then .reservedC7s3 pre (rmField m) imm
  else if regField m = 4 then .reservedC7s4 pre (rmField m) imm
  else if regField m = 5 then .reservedC7s5 pre (rmField m) imm
  else if regField m = 6 then .reservedC7s6 pre (rmField m) imm
  else .reservedC7s7 pre (rmField m) imm

/-- The instruction of a format `OMI` opcode, its operand byte and its imm32. -/
def omiInstr (k : OMIOp) (pre : Option Byte) (m : Byte) (imm : BitVec 32) : Instr :=
  match k with
  | .group1 => group1Instr pre m imm
  | .store => storeInstr pre m imm

/-- The instruction of a format `AI` opcode and its imm32 (R170, R171). -/
def aiInstr (k : AIOp) (pre : Option Byte) (imm : BitVec 32) : Instr :=
  match k with
  | .adda => .adda pre imm
  | .suba => .suba pre imm

/-- Step 4 for format `OI`: an imm64 after a prefix, else an imm32 (R71, R95). `p` is the offset of `bs`. -/
def decodeOI (pre : Option Byte) (r : Reg) (p : Nat) (bs : List Byte) : Decoded :=
  match pre with
  | some b =>
    match readImm64 bs with
    | some v => .instr (loadi64Of b r v)
    | none => .fault p .truncatedImmediate
  | none =>
    match readImm32 bs with
    | some v => .instr (loadiOf r v)
    | none => .fault p .truncatedImmediate

/-- Step 3 for format `OM`: the operand byte and its addressing-mode check (R94). -/
def decodeOM (pre : Option Byte) (k : OMOp) (p : Nat) : List Byte → Decoded
  | [] => .fault p .truncatedInput
  | m :: _ =>
    if modField m = modDirect then .instr (omInstr k pre m) else .fault p .unsupportedAddressingMode

/-- Steps 3 and 4 for format `OMI`: the addressing-mode fault comes before the immediate is read (R94, R95). -/
def decodeOMI (pre : Option Byte) (k : OMIOp) (p : Nat) : List Byte → Decoded
  | [] => .fault p .truncatedInput
  | m :: bs =>
    if modField m = modDirect then
      match readImm32 bs with
      | some v => .instr (omiInstr k pre m v)
      | none => .fault (p + 1) .truncatedImmediate
    else .fault p .unsupportedAddressingMode

/-- Step 4 for format `AI` (R95). -/
def decodeAI (pre : Option Byte) (k : AIOp) (p : Nat) (bs : List Byte) : Decoded :=
  match readImm32 bs with
  | some v => .instr (aiInstr k pre v)
  | none => .fault p .truncatedImmediate

/-- Step 2, the opcode, at offset `p` (R93). A byte that is no opcode is the fault `UnknownOpcode`; after a prefix the
pair of bytes is read as `w`, the table's prefix row, and DECODE_NEXT raises that fault for it (log 2). -/
def decodeOpcode (pre : Option Byte) (p : Nat) : List Byte → Decoded
  | [] => .fault p .truncatedInput
  | op :: bs =>
    match opcodeOf op with
    | some (.oi r) => decodeOI pre r (p + 1) bs
    | some (.om k) => decodeOM pre k (p + 1) bs
    | some (.omi k) => decodeOMI pre k (p + 1) bs
    | some (.ai k) => decodeAI pre k (p + 1) bs
    | none =>
      match pre with
      | some b => .instr (.w b op)
      | none => .fault p .unknownOpcode

/-- The reading of the bytes from the cursor to the end of the buffer (R98): step 1, one optional prefix byte (R92, R99), then the
rest. DECODE_NEXT itself is `decodeNext`, on the state: what is read as `w` it answers with the fault (log 2). -/
def decode : List Byte → Decoded
  | [] => .fault 0 .truncatedInput
  | b :: bs => if isPrefix b then decodeOpcode (some b) 1 bs else decodeOpcode none 0 (b :: bs)

/-- The length in bytes of a form with an optional prefix (R62, R75). -/
def lengthWith (pre : Option Byte) (base : Nat) : Nat :=
  match pre with
  | none => base
  | some _ => base + 1

/-- How many bytes DECODE_NEXT consumes for an instruction: the record's `length` (R62, R75, R97). For `w` DECODE_NEXT
fails and the cursor does not move (R100): 0. -/
def Instr.length : Instr → Nat
  | .w _ _ => 0
  | .loadiA _ => 5
  | .loadiC _ => 5
  | .loadiD _ => 5
  | .loadiB _ => 5
  | .loadi64A _ _ => 10
  | .loadi64C _ _ => 10
  | .loadi64D _ _ => 10
  | .loadi64B _ _ => 10
  | .movMR pre _ _ => lengthWith pre 2
  | .movRM pre _ _ => lengthWith pre 2
  | .add pre _ _ => lengthWith pre 2
  | .sub pre _ _ => lengthWith pre 2
  | .xor pre _ _ => lengthWith pre 2
  | .addi pre _ _ => lengthWith pre 6
  | .subi pre _ _ => lengthWith pre 6
  | .reserved81s1 pre _ _ => lengthWith pre 6
  | .reserved81s2 pre _ _ => lengthWith pre 6
  | .reserved81s3 pre _ _ => lengthWith pre 6
  | .reserved81s4 pre _ _ => lengthWith pre 6
  | .reserved81s6 pre _ _ => lengthWith pre 6
  | .reserved81s7 pre _ _ => lengthWith pre 6
  | .adda pre _ => lengthWith pre 5
  | .suba pre _ => lengthWith pre 5
  | .storei pre _ _ => lengthWith pre 6
  | .reservedC7s1 pre _ _ => lengthWith pre 6
  | .reservedC7s2 pre _ _ => lengthWith pre 6
  | .reservedC7s3 pre _ _ => lengthWith pre 6
  | .reservedC7s4 pre _ _ => lengthWith pre 6
  | .reservedC7s5 pre _ _ => lengthWith pre 6
  | .reservedC7s6 pre _ _ => lengthWith pre 6
  | .reservedC7s7 pre _ _ => lengthWith pre 6

/-- The longest instruction in bytes (R60). -/
def maxLength : Nat := 10

/-! ## The encoder -/

/-- Format `OI` without prefix (R61). -/
def encodeOI32 (r : Reg) (imm : BitVec 32) : List Byte := (Opcode.oi r).byte :: bytesOfImm32 imm

/-- Format `OI` with prefix (R61). -/
def encodeOI64 (p : Byte) (r : Reg) (imm : BitVec 64) : List Byte :=
  p :: (Opcode.oi r).byte :: bytesOfImm64 imm

/-- Format `OM` (R61). -/
def encodeOM (pre : Option Byte) (k : OMOp) (reg rm : BitVec 3) : List Byte :=
  pre.toList ++ [(Opcode.om k).byte, operandByte reg rm]

/-- Format `OMI` with sub-selector `sel` (R61). -/
def encodeOMI (pre : Option Byte) (k : OMIOp) (sel rm : BitVec 3) (imm : BitVec 32) : List Byte :=
  pre.toList ++ (Opcode.omi k).byte :: operandByte sel rm :: bytesOfImm32 imm

/-- Format `AI` (R61). -/
def encodeAI (pre : Option Byte) (k : AIOp) (imm : BitVec 32) : List Byte :=
  pre.toList ++ (Opcode.ai k).byte :: bytesOfImm32 imm

/-- The bytes of an instruction (R77 with every prefix byte and field). -/
def encode : Instr → List Byte
  | .w p nxt => [p, nxt]
  | .loadiA imm => encodeOI32 .A imm
  | .loadiC imm => encodeOI32 .C imm
  | .loadiD imm => encodeOI32 .D imm
  | .loadiB imm => encodeOI32 .B imm
  | .loadi64A p imm => encodeOI64 p .A imm
  | .loadi64C p imm => encodeOI64 p .C imm
  | .loadi64D p imm => encodeOI64 p .D imm
  | .loadi64B p imm => encodeOI64 p .B imm
  | .movMR pre reg rm => encodeOM pre .movMR reg rm
  | .movRM pre reg rm => encodeOM pre .movRM reg rm
  | .add pre reg rm => encodeOM pre .add reg rm
  | .sub pre reg rm => encodeOM pre .sub reg rm
  | .xor pre reg rm => encodeOM pre .xor reg rm
  | .addi pre rm imm => encodeOMI pre .group1 0 rm imm
  | .subi pre rm imm => encodeOMI pre .group1 5 rm imm
  | .reserved81s1 pre rm imm => encodeOMI pre .group1 1 rm imm
  | .reserved81s2 pre rm imm => encodeOMI pre .group1 2 rm imm
  | .reserved81s3 pre rm imm => encodeOMI pre .group1 3 rm imm
  | .reserved81s4 pre rm imm => encodeOMI pre .group1 4 rm imm
  | .reserved81s6 pre rm imm => encodeOMI pre .group1 6 rm imm
  | .reserved81s7 pre rm imm => encodeOMI pre .group1 7 rm imm
  | .adda pre imm => encodeAI pre .adda imm
  | .suba pre imm => encodeAI pre .suba imm
  | .storei pre rm imm => encodeOMI pre .store 0 rm imm
  | .reservedC7s1 pre rm imm => encodeOMI pre .store 1 rm imm
  | .reservedC7s2 pre rm imm => encodeOMI pre .store 2 rm imm
  | .reservedC7s3 pre rm imm => encodeOMI pre .store 3 rm imm
  | .reservedC7s4 pre rm imm => encodeOMI pre .store 4 rm imm
  | .reservedC7s5 pre rm imm => encodeOMI pre .store 5 rm imm
  | .reservedC7s6 pre rm imm => encodeOMI pre .store 6 rm imm
  | .reservedC7s7 pre rm imm => encodeOMI pre .store 7 rm imm

/-! ## Instruction records -/

/-- The record of a format `OI` instruction without prefix (R31). -/
def recordOI32 (r : Reg) (imm : BitVec 32) (len : Nat) : Record :=
  { opcode := (Opcode.oi r).byte, m := none, imm32 := some imm, imm64 := none, length := len }

/-- The record of a format `OI` instruction with prefix (R31). -/
def recordOI64 (r : Reg) (imm : BitVec 64) (len : Nat) : Record :=
  { opcode := (Opcode.oi r).byte, m := none, imm32 := none, imm64 := some imm, length := len }

/-- The record of a format `OM` instruction (R31). -/
def recordOM (k : OMOp) (reg rm : BitVec 3) (len : Nat) : Record :=
  { opcode := (Opcode.om k).byte, m := some (operandByte reg rm), imm32 := none, imm64 := none, length := len }

/-- The record of a format `OMI` instruction (R31). -/
def recordOMI (k : OMIOp) (sel rm : BitVec 3) (imm : BitVec 32) (len : Nat) : Record :=
  { opcode := (Opcode.omi k).byte, m := some (operandByte sel rm), imm32 := some imm, imm64 := none, length := len }

/-- The record of a format `AI` instruction (R31). -/
def recordAI (k : AIOp) (imm : BitVec 32) (len : Nat) : Record :=
  { opcode := (Opcode.ai k).byte, m := none, imm32 := some imm, imm64 := none, length := len }

/-- The record DECODE_NEXT hands to EXECUTE for an instruction (R30, R31, R97). `w` has none: its DECODE_NEXT fails. -/
def Instr.record (i : Instr) : Option Record :=
  match i with
  | .w _ _ => none
  | .loadiA imm => some (recordOI32 .A imm i.length)
  | .loadiC imm => some (recordOI32 .C imm i.length)
  | .loadiD imm => some (recordOI32 .D imm i.length)
  | .loadiB imm => some (recordOI32 .B imm i.length)
  | .loadi64A _ imm => some (recordOI64 .A imm i.length)
  | .loadi64C _ imm => some (recordOI64 .C imm i.length)
  | .loadi64D _ imm => some (recordOI64 .D imm i.length)
  | .loadi64B _ imm => some (recordOI64 .B imm i.length)
  | .movMR _ reg rm => some (recordOM .movMR reg rm i.length)
  | .movRM _ reg rm => some (recordOM .movRM reg rm i.length)
  | .add _ reg rm => some (recordOM .add reg rm i.length)
  | .sub _ reg rm => some (recordOM .sub reg rm i.length)
  | .xor _ reg rm => some (recordOM .xor reg rm i.length)
  | .addi _ rm imm => some (recordOMI .group1 0 rm imm i.length)
  | .subi _ rm imm => some (recordOMI .group1 5 rm imm i.length)
  | .reserved81s1 _ rm imm => some (recordOMI .group1 1 rm imm i.length)
  | .reserved81s2 _ rm imm => some (recordOMI .group1 2 rm imm i.length)
  | .reserved81s3 _ rm imm => some (recordOMI .group1 3 rm imm i.length)
  | .reserved81s4 _ rm imm => some (recordOMI .group1 4 rm imm i.length)
  | .reserved81s6 _ rm imm => some (recordOMI .group1 6 rm imm i.length)
  | .reserved81s7 _ rm imm => some (recordOMI .group1 7 rm imm i.length)
  | .adda _ imm => some (recordAI .adda imm i.length)
  | .suba _ imm => some (recordAI .suba imm i.length)
  | .storei _ rm imm => some (recordOMI .store 0 rm imm i.length)
  | .reservedC7s1 _ rm imm => some (recordOMI .store 1 rm imm i.length)
  | .reservedC7s2 _ rm imm => some (recordOMI .store 2 rm imm i.length)
  | .reservedC7s3 _ rm imm => some (recordOMI .store 3 rm imm i.length)
  | .reservedC7s4 _ rm imm => some (recordOMI .store 4 rm imm i.length)
  | .reservedC7s5 _ rm imm => some (recordOMI .store 5 rm imm i.length)
  | .reservedC7s6 _ rm imm => some (recordOMI .store 6 rm imm i.length)
  | .reservedC7s7 _ rm imm => some (recordOMI .store 7 rm imm i.length)

/-- The prefix byte that stands for "a prefix was consumed" when an instruction is read back from a record, which keeps no
prefix byte (R30): the member the source shows (R63). No meaning looks at the byte. -/
def shownPrefix : Byte := 0x48

/-- The optional prefix that a record's length tells of, for a form of `base` bytes without one; none for a length that
no such form has (R31). -/
def prefixOfLength (base len : Nat) : Option (Option Byte) :=
  if len = base then some none
  else if len = base + 1 then some (some shownPrefix)
  else none

/-- EXECUTE's reading of a record (R112): by opcode, with the fields of R31; any other combination of fields is malformed
(R126). -/
def Record.reading (r : Record) : RecordReading :=
  match opcodeOf r.opcode with
  | none => .unmapped
  | some (.oi d) =>
    match r.m, r.imm32, r.imm64 with
    | none, some v, none => if r.length = 5 then .instr (loadiOf d v) else .malformed
    | none, none, some v => if r.length = 10 then .instr (loadi64Of shownPrefix d v) else .malformed
    | _, _, _ => .malformed
  | some (.om k) =>
    match r.m, r.imm32, r.imm64, prefixOfLength 2 r.length with
    | some m, none, none, some pre =>
      if modField m = modDirect then .instr (omInstr k pre m) else .malformed
    | _, _, _, _ => .malformed
  | some (.omi k) =>
    match r.m, r.imm32, r.imm64, prefixOfLength 6 r.length with
    | some m, some v, none, some pre =>
      if modField m = modDirect then .instr (omiInstr k pre m v) else .malformed
    | _, _, _, _ => .malformed
  | some (.ai k) =>
    match r.m, r.imm32, r.imm64, prefixOfLength 5 r.length with
    | none, some v, none, some pre => .instr (aiInstr k pre v)
    | _, _, _, _ => .malformed

/-! ## The words of the opcode table -/

/-- The bytes of a table word, laid out as the hardware stores them: spec/opcode_table.json numbers a row as `op` or
`op ++ m`, the opcode in the HIGH byte (R76, R7), and the opcode is stored first (R42); zeros follow, up to the longest
instruction (log 6). -/
def tableBytes (nbits w : Nat) : List Byte :=
  ((List.range (nbits / 8)).map fun k => BitVec.ofNat 8 (w / 256 ^ (nbits / 8 - 1 - k)))
    ++ List.replicate (maxLength - nbits / 8) 0#8

/-- The instruction the decoder reads from a word of the opcode table (log 6). -/
def decodeTableWord (nbits w : Nat) : Option Instr :=
  match decode (tableBytes nbits w) with
  | .instr i => some i
  | .fault _ _ => none

end Sys2Proof
end

