-- ==== Sys2Proof/Machine/State.lean ====
section
/-! DEFINITION. The state of the machine (10_state.md R35), its value after reset (R34), and the closed lists of the ways a
step stops. -/

namespace Sys2Proof.Machine

/-- The register file: four independent 64-bit slots, none hard-wired, no aliases (R20, R23). -/
structure Regs where
  a : Word
  b : Word
  c : Word
  d : Word
deriving DecidableEq, Repr

/-- The four reasons of an execute fault, XF1 to XF4 (60_exceptions.md R221). -/
inductive ExecuteReason where
  | arithmeticOverflow
  | unsupportedSubOpcode
  | unknownOpcode
  | invalidRegister
deriving DecidableEq, Repr

/-- The `STATUS` latch (R32): while `Running` it has no position and no reason (R34). -/
inductive Status where
  | running
  | decodeFault (pos : Nat) (reason : DecodeReason)
  | executeFault (pos : Nat) (reason : ExecuteReason)
deriving DecidableEq, Repr

/-- The instruction buffer (20_memory.md R40): offsets 0 to `size - 1` exist and each holds a byte. `cells` lists, by rising
offset, the bytes that differ from `Config.unlistedByte` (log 4). -/
structure Memory where
  cells : List Host.Cell
  size : Nat
deriving DecidableEq, Repr

/-- The canonical form of a buffer: rising offsets, all inside the buffer, no entry equal to what an unlisted offset reads
as; so equal buffers are equal data (log 4). -/
abbrev Memory.wf (m : Memory) : Prop :=
  m.cells.Pairwise (fun x y => x.1 < y.1) ∧ ∀ c ∈ m.cells, c.1 < m.size ∧ c.2 ≠ Config.unlistedByte

/-- The state: registers, `pc`, `cursor`, `STATUS` (R35), and the buffer the run is bound to (R35, R250). -/
structure State where
  regs : Regs
  pc : Nat
  cursor : Nat
  status : Status
  buf : Memory
deriving DecidableEq, Repr

/-- Why a step stops. Neither reason is a fault of the spec: the spec's faults are next states with `STATUS` latched (log 3). -/
inductive Fault where
  /-- Raised by the step where HAS_MORE is false and `STATUS` is `Running`: the normal end of a run (49_run_result_host.md
  R201). Safe: the spec has no step there. -/
  | exhausted
  /-- Raised by every step, DECODE_NEXT or EXECUTE whose `STATUS` holds a fault: no operation is defined until reset
  (40_decoder.md R100, 60_exceptions.md R234, R236; U15). Safe: the spec has no step there. -/
  | terminal
deriving DecidableEq, Repr

/-- What the model gives no meaning. -/
inductive Refusal where
  /-- Raised by an arm of `exec` whose instruction has no meaning yet. No arm does. Safe. -/
  | notModelled (mnemonic : String)
  /-- Raised by `executeRecord` for a record with a mapped opcode and fields that no Decoder produces, to which the spec
  gives no meaning (41_execute_common.md R126, D19). No step and no instruction raises it. Safe. -/
  | malformedRecord
deriving DecidableEq, Repr

/-- The empty buffer, `N = 0`. -/
def Memory.empty : Memory := { cells := [], size := 0 }

/-- Every register 0 (R34). -/
def Regs.zero : Regs := { a := 0, b := 0, c := 0, d := 0 }

/-- The machine right after reset (R34, 70_reset_and_hazards.md R250), bound to the empty buffer: the host supplies the
buffer (log 5). -/
def State.reset : State :=
  { regs := Regs.zero, pc := 0, cursor := 0, status := .running, buf := Memory.empty }

end Sys2Proof.Machine
end

