-- ==== Sys2Proof/Machine/Ops.lean ====
section
/-! DEFINITION. The named operations over registers, buffer, `pc` and `STATUS`: register access (R20, R22), buffer access
(R40, R43), the commit of an EXECUTE (R111), and taking a fault (R222, R223). There is no return from a fault: the only
exit is reset (R236, R250). -/

namespace Sys2Proof.Machine

/-- What a step answers. -/
abbrev Outcome := Host.Outcome State Fault Refusal

/-- `x[r]` (R9). -/
def Regs.get (x : Regs) (r : Reg) : Word :=
  match r with
  | .A => x.a
  | .B => x.b
  | .C => x.c
  | .D => x.d

/-- `x[r] <- v` (R9). -/
def Regs.set (x : Regs) (r : Reg) (v : Word) : Regs :=
  match r with
  | .A => { x with a := v }
  | .B => { x with b := v }
  | .C => { x with c := v }
  | .D => { x with d := v }

/-- `x[r]` of a state. -/
def State.reg (s : State) (r : Reg) : Word := s.regs.get r

/-! ## The instruction buffer -/

/-- The byte a list of cells holds at an offset. -/
def cellsRead : List Host.Cell → Nat → Byte
  | [], _ => Config.unlistedByte
  | c :: cs, a => if c.1 = a then c.2 else cellsRead cs a

/-- `buf[a]`: a byte where `a < N`, nothing elsewhere (R40, R43). -/
def Memory.read (m : Memory) (a : Nat) : Option Byte :=
  if a < m.size then some (cellsRead m.cells a) else none

/-- `buf[a]` of a state. -/
def State.readByte (s : State) (a : Nat) : Option Byte := s.buf.read a

/-- The cells with the entry of one offset removed. -/
def cellsErase (a : Nat) : List Host.Cell → List Host.Cell
  | [] => []
  | c :: cs => if c.1 = a then cs else c :: cellsErase a cs

/-- The cells with an entry put at its place by rising offset, replacing an entry of the same offset. -/
def cellsInsert (a : Nat) (b : Byte) : List Host.Cell → List Host.Cell
  | [] => [(a, b)]
  | c :: cs =>
    if a < c.1 then (a, b) :: c :: cs
    else if c.1 = a then (a, b) :: cs
    else c :: cellsInsert a b cs

/-- The HOST's placing of one byte while it fills a buffer (R252); it keeps the canonical form. No instruction writes the
buffer: `MemWrite` does not exist (R9, R41). An offset past the end does not exist and nothing is placed there. -/
def Memory.place (m : Memory) (a : Nat) (b : Byte) : Memory :=
  if a < m.size then
    { m with cells := if b = Config.unlistedByte then cellsErase a m.cells else cellsInsert a b m.cells }
  else m

/-- The HOST's lengthening of a buffer to at least `n` bytes. -/
def Memory.grow (m : Memory) (n : Nat) : Memory := { m with size := max m.size n }

/-- The HOST's placing of consecutive bytes. -/
def Memory.placeAll (m : Memory) (a : Nat) : List Byte → Memory
  | [] => m
  | b :: bs => (m.place a b).placeAll (a + 1) bs

/-- The buffer that holds exactly these bytes from offset 0 on (R210). -/
def Memory.ofBytes (bs : List Byte) : Memory := (Memory.empty.grow bs.length).placeAll 0 bs

/-! ## Taking a fault, and the commit -/

/-- TAKING A FAULT, the one operation both kinds share: `STATUS` is latched and nothing else changes; no vector, no saved
register, no mode change (R222, R223, R234). -/
def takeFault (s : State) (f : Status) : State := { s with status := f }

/-- `raise DecodeFault(off, reason)` (R222). -/
def raiseDecode (s : State) (off : Nat) (reason : DecodeReason) : State :=
  takeFault s (.decodeFault off reason)

/-- The fault of a prefix followed by a byte that is no opcode: `UnknownOpcode` at that byte, the one after the cursor (R93, R96,
R99). DECODE_NEXT raises it, and the meaning of `w` is it (log 2). -/
def raisePrefix (s : State) : State := raiseDecode s (s.cursor + 1) .unknownOpcode

/-- `raise ExecuteFault(pc, reason)` (R223): the recorded position is the unchanged `pc`. -/
def raiseExecute (s : State) (reason : ExecuteReason) : State :=
  takeFault s (.executeFault s.pc reason)

/-- `require STATUS.kind = Running` (R98, R112): after a fault no operation has a step (R100; log 3). -/
def whenRunning (s : State) (k : Outcome) : Outcome :=
  match s.status with
  | .running => k
  | .decodeFault _ _ => .fault .terminal
  | .executeFault _ _ => .fault .terminal

/-- The state after a completed EXECUTE: one register written, `pc` advanced by the length, nothing else (R25, R111). -/
def committed (s : State) (d : Reg) (v : Word) (len : Nat) : State :=
  { s with regs := s.regs.set d v, pc := s.pc + len }

/-- The atomic commit of R111. -/
def commit (s : State) (d : Reg) (v : Word) (len : Nat) : Outcome := .next (committed s d v len)

/-- The commit of an add or subtract: where there is no result the fault `ArithmeticOverflow` is taken (R116). -/
def commitChecked (s : State) (d : Reg) (v : Option Word) (len : Nat) : Outcome :=
  match v with
  | some w => commit s d w len
  | none => .next (raiseExecute s .arithmeticOverflow)

/-- A reserved sub-selector: the fault `UnsupportedSubOpcode`, before the register code is looked at (R121, R162, R181). -/
def unsupportedSubOpcode (s : State) : Outcome :=
  whenRunning s (.next (raiseExecute s .unsupportedSubOpcode))

end Sys2Proof.Machine
end

