-- ==== Sys2Proof/Machine/Flags.lean ====
section
/-! DEFINITION. The ALU (41_execute_common.md R114 to R119). The machine has no flags (10_state.md R27): the overflow test of
add and subtract decides between a result and a fault, and is not stored. -/

namespace Sys2Proof.Machine

/-- `bits64(t)` where the exact integer `t` is in `S64`; no result where it is not (R8, R114, R115). -/
def exact64 (t : Int) : Option Word :=
  if min64 ≤ t ∧ t ≤ max64 then some (BitVec.ofInt 64 t) else none

/-- `alu_add` (R114). -/
def aluAdd (a b : Word) : Option Word := exact64 (a.toInt + b.toInt)

/-- `alu_sub` (R115). -/
def aluSub (a b : Word) : Option Word := exact64 (a.toInt - b.toInt)

/-- The overflow signal of an addition in bits (R114): equal sign bits, and another in the wrapped sum. -/
def addOverflowBits (a b : Word) : Bool := a.msb == b.msb && (a + b).msb != a.msb

/-- The overflow signal of a subtraction in bits (R115). -/
def subOverflowBits (a b : Word) : Bool := a.msb != b.msb && (a - b).msb != a.msb

/-- `alu_xor` (R118). -/
def aluXor (a b : Word) : Word := a ^^^ b

/-- `alu_pass` (R118). -/
def aluPass (b : Word) : Word := b

/-- `sext_64` (R119). -/
def sext64 (v : BitVec 32) : Word := v.signExtend 64

end Sys2Proof.Machine
end

