-- ==== Sys2Proof/Machine/Operands.lean ====
section
/-! DEFINITION. Operand resolution: `reg_of` (10_state.md R21) and the check of register fields (41_execute_common.md R120). -/

namespace Sys2Proof.Machine

/-- `reg_of(c)`: 0 A, 1 C, 2 D, 3 B; codes 4 to 7 name no register (R21). -/
def regOf (c : BitVec 3) : Option Reg :=
  if c = 0 then some .A
  else if c = 1 then some .C
  else if c = 2 then some .D
  else if c = 3 then some .B
  else none

/-- One register field: `InvalidRegister` for codes 4 to 7 (R120). -/
def withRegister (s : State) (c : BitVec 3) (k : Reg → Outcome) : Outcome :=
  match regOf c with
  | some r => k r
  | none => .next (raiseExecute s .invalidRegister)

/-- Both register fields of a format `OM` instruction: `InvalidRegister` if either holds 4 to 7 (R120). -/
def withRegisters (s : State) (dst src : BitVec 3) (k : Reg → Reg → Outcome) : Outcome :=
  withRegister s dst fun d => withRegister s src fun r => k d r

/-- A load of a value into an implied register (R130). -/
def loadRegister (s : State) (d : Reg) (v : Word) (len : Nat) : Outcome :=
  whenRunning s (commit s d (aluPass v) len)

/-- A two-register operation without overflow check (R118): `x[d] <- f x[d] x[r]`. -/
def plainOM (s : State) (dst src : BitVec 3) (len : Nat) (f : Word → Word → Word) : Outcome :=
  whenRunning s (withRegisters s dst src fun d r => commit s d (f (s.reg d) (s.reg r)) len)

/-- A two-register operation with overflow check (R116): `x[d] <- f x[d] x[r]`, or the fault. -/
def checkedOM (s : State) (dst src : BitVec 3) (len : Nat) (f : Word → Word → Option Word) : Outcome :=
  whenRunning s (withRegisters s dst src fun d r => commitChecked s d (f (s.reg d) (s.reg r)) len)

/-- A register and immediate operation with overflow check (R116, R67): `x[d] <- f x[d] sext_64(imm)`, or the fault. -/
def checkedImm (s : State) (d : Reg) (imm : BitVec 32) (len : Nat) (f : Word → Word → Option Word) : Outcome :=
  commitChecked s d (f (s.reg d) (sext64 imm)) len

end Sys2Proof.Machine
end

