-- ==== Sys2Proof/Machine/Accumulator.lean ====
section
/-! DEFINITION. Accumulator and imm32, opcodes 05 and 2D (46_accumulator_imm32.md R170, R171). -/

namespace Sys2Proof.Machine

/-- `ADDA imm32` (R170). -/
def execAdda (pre : Option Byte) (imm : BitVec 32) (s : State) : Outcome :=
  whenRunning s (checkedImm s .A imm (lengthWith pre 5) aluAdd)

/-- `SUBA imm32` (R171). -/
def execSuba (pre : Option Byte) (imm : BitVec 32) (s : State) : Outcome :=
  whenRunning s (checkedImm s .A imm (lengthWith pre 5) aluSub)

end Sys2Proof.Machine
end

