-- ==== Sys2Proof/Machine/Group1.lean ====
section
/-! DEFINITION. Generic register and imm32, opcode 81 (45_group1_imm32.md R160 to R162). -/

namespace Sys2Proof.Machine

/-- `ADDI dst, imm32` (R160). -/
def execAddi (pre : Option Byte) (rm : BitVec 3) (imm : BitVec 32) (s : State) : Outcome :=
  whenRunning s (withRegister s rm fun d => checkedImm s d imm (lengthWith pre 6) aluAdd)

/-- `SUBI dst, imm32` (R161). -/
def execSubi (pre : Option Byte) (rm : BitVec 3) (imm : BitVec 32) (s : State) : Outcome :=
  whenRunning s (withRegister s rm fun d => checkedImm s d imm (lengthWith pre 6) aluSub)

/-- Reserved 81 /1: the fault `UnsupportedSubOpcode` (R162). -/
def execReserved81s1 (_pre : Option Byte) (_rm : BitVec 3) (_imm : BitVec 32) (s : State) : Outcome :=
  unsupportedSubOpcode s

/-- Reserved 81 /2: the fault `UnsupportedSubOpcode` (R162). -/
def execReserved81s2 (_pre : Option Byte) (_rm : BitVec 3) (_imm : BitVec 32) (s : State) : Outcome :=
  unsupportedSubOpcode s

/-- Reserved 81 /3: the fault `UnsupportedSubOpcode` (R162). -/
def execReserved81s3 (_pre : Option Byte) (_rm : BitVec 3) (_imm : BitVec 32) (s : State) : Outcome :=
  unsupportedSubOpcode s

/-- Reserved 81 /4: the fault `UnsupportedSubOpcode` (R162). -/
def execReserved81s4 (_pre : Option Byte) (_rm : BitVec 3) (_imm : BitVec 32) (s : State) : Outcome :=
  unsupportedSubOpcode s

/-- Reserved 81 /6: the fault `UnsupportedSubOpcode` (R162). -/
def execReserved81s6 (_pre : Option Byte) (_rm : BitVec 3) (_imm : BitVec 32) (s : State) : Outcome :=
  unsupportedSubOpcode s

/-- Reserved 81 /7: the fault `UnsupportedSubOpcode` (R162). -/
def execReserved81s7 (_pre : Option Byte) (_rm : BitVec 3) (_imm : BitVec 32) (s : State) : Outcome :=
  unsupportedSubOpcode s

end Sys2Proof.Machine
end

