-- ==== Sys2Proof/Machine/LoadImmediate.lean ====
section
/-! DEFINITION. Load immediate into register, opcodes B8 to BB (42_load_immediate.md R130 to R139). -/

namespace Sys2Proof.Machine

/-- `LOADI A, imm32` (R131). -/
def execLoadiA (imm : BitVec 32) (s : State) : Outcome := loadRegister s .A (sext64 imm) 5

/-- `LOADI C, imm32` (R132). -/
def execLoadiC (imm : BitVec 32) (s : State) : Outcome := loadRegister s .C (sext64 imm) 5

/-- `LOADI D, imm32` (R133). -/
def execLoadiD (imm : BitVec 32) (s : State) : Outcome := loadRegister s .D (sext64 imm) 5

/-- `LOADI B, imm32` (R134). -/
def execLoadiB (imm : BitVec 32) (s : State) : Outcome := loadRegister s .B (sext64 imm) 5

/-- `W LOADI64 A, imm64` (R135): the immediate is used raw. -/
def execLoadi64A (_p : Byte) (imm : BitVec 64) (s : State) : Outcome := loadRegister s .A imm 10

/-- `W LOADI64 C, imm64` (R136). -/
def execLoadi64C (_p : Byte) (imm : BitVec 64) (s : State) : Outcome := loadRegister s .C imm 10

/-- `W LOADI64 D, imm64` (R137). -/
def execLoadi64D (_p : Byte) (imm : BitVec 64) (s : State) : Outcome := loadRegister s .D imm 10

/-- `W LOADI64 B, imm64` (R138). -/
def execLoadi64B (_p : Byte) (imm : BitVec 64) (s : State) : Outcome := loadRegister s .B imm 10

end Sys2Proof.Machine
end

