-- ==== Sys2Proof/Machine/RegAddSub.lean ====
section
/-! DEFINITION. Register add and subtract, opcodes 01 and 29 (44_reg_add_sub.md R150 to R152). -/

namespace Sys2Proof.Machine

/-- `ADD dst, src` (R150): destination `rm`, source `reg`. -/
def execAdd (pre : Option Byte) (reg rm : BitVec 3) (s : State) : Outcome :=
  checkedOM s rm reg (lengthWith pre 2) aluAdd

/-- `SUB dst, src` (R151): destination and minuend `rm`, subtrahend `reg`. -/
def execSub (pre : Option Byte) (reg rm : BitVec 3) (s : State) : Outcome :=
  checkedOM s rm reg (lengthWith pre 2) aluSub

end Sys2Proof.Machine
end

