-- ==== Sys2Proof/Machine/RegMove.lean ====
section
/-! DEFINITION. Register-to-register move, opcodes 89 and 8B (43_reg_move.md R140 to R142). -/

namespace Sys2Proof.Machine

/-- `MOV.MR dst, src` (R140): destination `rm`, source `reg`. -/
def execMovMR (pre : Option Byte) (reg rm : BitVec 3) (s : State) : Outcome :=
  plainOM s rm reg (lengthWith pre 2) fun _ b => aluPass b

/-- `MOV.RM dst, src` (R141): destination `reg`, source `rm`. -/
def execMovRM (pre : Option Byte) (reg rm : BitVec 3) (s : State) : Outcome :=
  plainOM s reg rm (lengthWith pre 2) fun _ b => aluPass b

end Sys2Proof.Machine
end

