-- ==== Sys2Proof/Machine/StoreImmediate.lean ====
section
/-! DEFINITION. Immediate store to register, opcode C7 (47_store_immediate.md R180, R181). -/

namespace Sys2Proof.Machine

/-- `STOREI dst, imm32` (R180): a direct assignment, no overflow check. -/
def execStorei (pre : Option Byte) (rm : BitVec 3) (imm : BitVec 32) (s : State) : Outcome :=
  whenRunning s (withRegister s rm fun d => commit s d (aluPass (sext64 imm)) (lengthWith pre 6))

/-- Reserved C7 /1: the fault `UnsupportedSubOpcode` (R181). -/
def execReservedC7s1 (_pre : Option Byte) (_rm : BitVec 3) (_imm : BitVec 32) (s : State) : Outcome :=
  unsupportedSubOpcode s

/-- Reserved C7 /2: the fault `UnsupportedSubOpcode` (R181). -/
def execReservedC7s2 (_pre : Option Byte) (_rm : BitVec 3) (_imm : BitVec 32) (s : State) : Outcome :=
  unsupportedSubOpcode s

/-- Reserved C7 /3: the fault `UnsupportedSubOpcode` (R181). -/
def execReservedC7s3 (_pre : Option Byte) (_rm : BitVec 3) (_imm : BitVec 32) (s : State) : Outcome :=
  unsupportedSubOpcode s

/-- Reserved C7 /4: the fault `UnsupportedSubOpcode` (R181). -/
def execReservedC7s4 (_pre : Option Byte) (_rm : BitVec 3) (_imm : BitVec 32) (s : State) : Outcome :=
  unsupportedSubOpcode s

/-- Reserved C7 /5: the fault `UnsupportedSubOpcode` (R181). -/
def execReservedC7s5 (_pre : Option Byte) (_rm : BitVec 3) (_imm : BitVec 32) (s : State) : Outcome :=
  unsupportedSubOpcode s

/-- Reserved C7 /6: the fault `UnsupportedSubOpcode` (R181). -/
def execReservedC7s6 (_pre : Option Byte) (_rm : BitVec 3) (_imm : BitVec 32) (s : State) : Outcome :=
  unsupportedSubOpcode s

/-- Reserved C7 /7: the fault `UnsupportedSubOpcode` (R181). -/
def execReservedC7s7 (_pre : Option Byte) (_rm : BitVec 3) (_imm : BitVec 32) (s : State) : Outcome :=
  unsupportedSubOpcode s

end Sys2Proof.Machine
end

