-- ==== Sys2Proof/Machine/WidenPrefix.lean ====
section
/-! DEFINITION. The widening prefix with no opcode after it (30_encoding.md R63; 40_decoder.md R93, R99; log 2). -/

namespace Sys2Proof.Machine

/-- The prefix `p` is consumed and the byte `nxt` after it is no opcode: DECODE_NEXT raises `UnknownOpcode` at that byte, the
one after the cursor, and leaves the cursor, `pc` and the registers as they were (R93, R96, R100, R222). In a step DECODE_NEXT has
raised it already (R98) and no EXECUTE follows; this is the same effect, given to the table's prefix row (log 2). -/
def execW (_p _nxt : Byte) (s : State) : Outcome :=
  whenRunning s (.next (raisePrefix s))

end Sys2Proof.Machine
end

