-- ==== Sys2Proof/Machine/Xor.lean ====
section
/-! DEFINITION. Register XOR, opcode 31 (48_xor.md R190). -/

namespace Sys2Proof.Machine

/-- `XOR dst, src` (R190): destination `rm`, source `reg`; all 64 bits, no overflow check. -/
def execXor (pre : Option Byte) (reg rm : BitVec 3) (s : State) : Outcome :=
  plainOM s rm reg (lengthWith pre 2) aluXor

end Sys2Proof.Machine
end

