-- ==== Sys2Proof/Machine/Dispatch.lean ====
section
/-! DEFINITION. EXECUTE's dispatch (41_execute_common.md R112): one arm per constructor of `Instr`. -/

namespace Sys2Proof.Machine

def exec (i : Instr) (s : State) : Host.Outcome State Fault Refusal :=
  match i with
  | .w p nxt => Sys2Proof.Machine.execW p nxt s
  | .loadiA imm => Sys2Proof.Machine.execLoadiA imm s
  | .loadiC imm => Sys2Proof.Machine.execLoadiC imm s
  | .loadiD imm => Sys2Proof.Machine.execLoadiD imm s
  | .loadiB imm => Sys2Proof.Machine.execLoadiB imm s
  | .loadi64A p imm => Sys2Proof.Machine.execLoadi64A p imm s
  | .loadi64C p imm => Sys2Proof.Machine.execLoadi64C p imm s
  | .loadi64D p imm => Sys2Proof.Machine.execLoadi64D p imm s
  | .loadi64B p imm => Sys2Proof.Machine.execLoadi64B p imm s
  | .movMR pre reg rm => Sys2Proof.Machine.execMovMR pre reg rm s
  | .movRM pre reg rm => Sys2Proof.Machine.execMovRM pre reg rm s
  | .add pre reg rm => Sys2Proof.Machine.execAdd pre reg rm s
  | .sub pre reg rm => Sys2Proof.Machine.execSub pre reg rm s
  | .xor pre reg rm => Sys2Proof.Machine.execXor pre reg rm s
  | .addi pre rm imm => Sys2Proof.Machine.execAddi pre rm imm s
  | .subi pre rm imm => Sys2Proof.Machine.execSubi pre rm imm s
  | .reserved81s1 pre rm imm => Sys2Proof.Machine.execReserved81s1 pre rm imm s
  | .reserved81s2 pre rm imm => Sys2Proof.Machine.execReserved81s2 pre rm imm s
  | .reserved81s3 pre rm imm => Sys2Proof.Machine.execReserved81s3 pre rm imm s
  | .reserved81s4 pre rm imm => Sys2Proof.Machine.execReserved81s4 pre rm imm s
  | .reserved81s6 pre rm imm => Sys2Proof.Machine.execReserved81s6 pre rm imm s
  | .reserved81s7 pre rm imm => Sys2Proof.Machine.execReserved81s7 pre rm imm s
  | .adda pre imm => Sys2Proof.Machine.execAdda pre imm s
  | .suba pre imm => Sys2Proof.Machine.execSuba pre imm s
  | .storei pre rm imm => Sys2Proof.Machine.execStorei pre rm imm s
  | .reservedC7s1 pre rm imm => Sys2Proof.Machine.execReservedC7s1 pre rm imm s
  | .reservedC7s2 pre rm imm => Sys2Proof.Machine.execReservedC7s2 pre rm imm s
  | .reservedC7s3 pre rm imm => Sys2Proof.Machine.execReservedC7s3 pre rm imm s
  | .reservedC7s4 pre rm imm => Sys2Proof.Machine.execReservedC7s4 pre rm imm s
  | .reservedC7s5 pre rm imm => Sys2Proof.Machine.execReservedC7s5 pre rm imm s
  | .reservedC7s6 pre rm imm => Sys2Proof.Machine.execReservedC7s6 pre rm imm s
  | .reservedC7s7 pre rm imm => Sys2Proof.Machine.execReservedC7s7 pre rm imm s

end Sys2Proof.Machine
end

