-- ==== Sys2Proof/Machine/Fetch.lean ====
section
/-! DEFINITION. HAS_MORE, DECODE_NEXT on the state, and one iteration of the run loop (40_decoder.md R91, R98;
49_run_result_host.md R200). -/

namespace Sys2Proof.Machine

/-- HAS_MORE (R91). -/
def hasMore (s : State) : Bool := decide (s.cursor < s.buf.size)

/-- The bytes DECODE_NEXT can look at: from the cursor to the end of the buffer, at most the longest instruction's ten
(R60, R98). -/
def window (s : State) : List Byte :=
  (List.range (min maxLength (s.buf.size - s.cursor))).map fun k => cellsRead s.buf.cells (s.cursor + k)

/-- The cursor moves by exactly the consumed length (R97). -/
def advanceCursor (s : State) (len : Nat) : State := { s with cursor := s.cursor + len }

/-- What a DECODE_NEXT answers (R90). -/
inductive Fetched where
  /-- A record, the instruction it is the record of, and the state with the cursor after it. -/
  | decoded (r : Record) (i : Instr) (s : State)
  /-- A decode fault was taken. -/
  | faulted (s : State)
  /-- `STATUS` holds a fault: there is no step (R100). -/
  | noStep
deriving DecidableEq, Repr

/-- DECODE_NEXT (R98): a record, with the cursor moved past its bytes, or a decode fault. It reads `cursor` and the buffer, and
writes `cursor` on success, `STATUS` on a fault. The bytes of `w`, which have no record, are a fault (R93, R99). -/
def decodeNext (s : State) : Fetched :=
  match s.status with
  | .running =>
    match decode (window s) with
    | .instr i =>
      match i.record with
      | some r => .decoded r i (advanceCursor s i.length)
      | none => .faulted (raisePrefix s)
    | .fault off reason => .faulted (raiseDecode s (s.cursor + off) reason)
  | .decodeFault _ _ => .noStep
  | .executeFault _ _ => .noStep

/-- One iteration of RUN (R200) over an EXECUTE: HAS_MORE, DECODE_NEXT, EXECUTE. Where HAS_MORE is false the run is over
(R201); a decode fault is taken as the next state; after a fault there is no step (R100, R234; log 3). -/
def runOnce (execute : Instr → State → Outcome) (s : State) : Outcome :=
  whenRunning s <|
    if hasMore s then
      match decodeNext s with
      | .decoded _ i t => execute i t
      | .faulted t => .next t
      | .noStep => .fault .terminal
    else .fault .exhausted

/-- The HOST's placing of an instruction's bytes where the next DECODE_NEXT reads, with `STATUS` as that DECODE_NEXT needs
it (log 5, log 6). -/
def placeAtCursor (s : State) (bs : List Byte) : State :=
  { s with status := .running, buf := (s.buf.grow (s.cursor + bs.length)).placeAll s.cursor bs }

end Sys2Proof.Machine
end

