-- ==== Sys2Proof/Machine/Step.lean ====
section
/-! DEFINITION. The step of the machine: one iteration of the run loop (49_run_result_host.md R200, R255). -/

namespace Sys2Proof.Machine

/-- One step: one DECODE_NEXT followed by one EXECUTE (R200, R255). -/
def step (s : State) : Host.Outcome State Fault Refusal := runOnce exec s

/-- The state with a word of the opcode table stored at the cursor, zeros after it up to the longest instruction (log 6). -/
def State.withFetchWord (s : State) (nbits w : Nat) : State := placeAtCursor s (tableBytes nbits w)

end Sys2Proof.Machine
end

