-- ==== Sys2Proof/Machine/HostPort.lean ====
section
/-! DEFINITION. What the host can do before, between and after steps (49_run_result_host.md R200 to R213,
70_reset_and_hazards.md R250 to R252), and the CPU's EXECUTE port for records of any origin (41_execute_common.md R110). -/

namespace Sys2Proof.Machine

/-! ## EXECUTE of a record -/

/-- EXECUTE(i) for a record (R112): the instruction its fields tell; an unmapped opcode raises `UnknownOpcode` (R122); a
mapped opcode with fields no Decoder produces has no meaning and is refused (R126; log 9). -/
def executeRecord (r : Record) (s : State) : Outcome :=
  whenRunning s <|
    match r.reading with
    | .instr i => exec i s
    | .unmapped => .next (raiseExecute s .unknownOpcode)
    | .malformed => .refused .malformedRecord

/-! ## Result extraction -/

/-- What RESULT answers (R205, R206): a signed 32-bit number, or the tag of R206. -/
inductive Result where
  | value (v : BitVec 32)
  | outOfRange
deriving DecidableEq, Repr

/-- RESULT (R205): a function of `x[A]` alone, defined in every state (D25). -/
def result (s : State) : Result :=
  if min32 ≤ (s.reg .A).toInt ∧ (s.reg .A).toInt ≤ max32 then .value (BitVec.ofInt 32 (s.reg .A).toInt)
  else .outOfRange

/-- RESULT as a bare 32-bit number, with the OPEN sentinel for the tag (R206; log 8). -/
def resultWord (s : State) : BitVec 32 :=
  match result s with
  | .value v => v
  | .outOfRange => Config.resultSentinel

/-- What the host may read between steps and after the end (R2, R204). -/
structure Observation where
  a : Word
  b : Word
  c : Word
  d : Word
  pc : Nat
  status : Status
  result : Result
deriving DecidableEq, Repr

/-- The host's reading of a state (R204). -/
def observe (s : State) : Observation :=
  { a := s.reg .A, b := s.reg .B, c := s.reg .C, d := s.reg .D, pc := s.pc, status := s.status, result := result s }

/-! ## Reset and the run -/

/-- Reset (R250): every piece of state at the value of R34, bound to the buffer the host supplies. It always resets Decoder
and CPU together (R251). It is the only exit from a fault (R236). -/
def resetOnto (buf : Memory) : State := { State.reset with buf := buf }

/-- At most `fuel` steps; it stands still where there is no step. -/
def runFuel : Nat → State → State
  | 0, s => s
  | fuel + 1, s =>
    match step s with
    | .next t => runFuel fuel t
    | .fault _ => s
    | .refused _ => s

/-- RUN(buf, N) (R200): reset, then step until the run ends. Every step but the last moves the cursor by 2 bytes or more
(R201), so `N + 1` steps are more than any run has. -/
def run (bs : List Byte) : State := runFuel (bs.length + 1) (resetOnto (Memory.ofBytes bs))

/-! ## The hex loader -/

/-- The value of a hex digit: `0`-`9`, `a`-`f`, `A`-`F` (R210). -/
def hexDigit (ch : Char) : Option Nat :=
  if 48 ≤ ch.toNat ∧ ch.toNat ≤ 57 then some (ch.toNat - 48)
  else if 97 ≤ ch.toNat ∧ ch.toNat ≤ 102 then some (ch.toNat - 87)
  else if 65 ≤ ch.toNat ∧ ch.toNat ≤ 70 then some (ch.toNat - 55)
  else none

/-- The space character, U+0020 (R211). -/
def isSpace (ch : Char) : Bool := ch.toNat == 32

/-- The digit values of a text without spaces; none if some character is no hex digit (R211). -/
def hexDigits : List Char → Option (List Nat)
  | [] => some []
  | ch :: cs =>
    match hexDigit ch, hexDigits cs with
    | some v, some vs => some (v :: vs)
    | _, _ => none

/-- The bytes of digit pairs, first digit the high nibble; none for an odd number of digits (R210, R211). -/
def pairBytes : List Nat → Option (List Byte)
  | [] => some []
  | [_] => none
  | hi :: lo :: vs =>
    match pairBytes vs with
    | some bs => some (BitVec.ofNat 8 (16 * hi + lo) :: bs)
    | none => none

/-- LOAD_HEX (R211): spaces removed, then every character a hex digit and an even number of them, else rejected. The
reason and position of a rejection are not modelled (R211, D16). A rejected text leaves no buffer and no run (R212). -/
def loadHex (text : List Char) : Option (List Byte) :=
  match hexDigits (text.filter fun ch => !isSpace ch) with
  | some vs => pairBytes vs
  | none => none

/-- The lower-case character of a digit value below 16 (R213). -/
def hexChar (v : Nat) : Char := if v < 10 then Char.ofNat (48 + v) else Char.ofNat (87 + v)

/-- The two lower-case characters of a byte. -/
def hexPair (b : Byte) : List Char := [hexChar (b.toNat / 16), hexChar (b.toNat % 16)]

/-- The canonical text of a buffer: lower case, no spaces (R213). -/
def canonicalHex (bs : List Byte) : List Char := bs.flatMap hexPair

/-- The spaced text of a buffer: one space between pairs (R213). -/
def spacedHex : List Byte → List Char
  | [] => []
  | [b] => hexPair b
  | b :: c :: bs => hexPair b ++ ' ' :: spacedHex (c :: bs)

/-- LOAD_HEX, then RUN (R252); nothing where the text is rejected (R212). -/
def runText (text : List Char) : Option State := (loadHex text).map run

end Sys2Proof.Machine
end

