-- ==== Sys2Proof/WellFormed.lean ====
section
/-! DEFINITION. Which terms of `Instr` stand for bytes: a prefix field holds a member of `PREFIX_SET` (30_encoding.md R63),
and the byte after the prefix of `w` is no opcode (R93). Register codes 4 to 7 are well formed: they decode (R66, R103). -/

namespace Sys2Proof

/-- An optional prefix is absent or a member of `PREFIX_SET` (R63). -/
def prefixOk (pre : Option Byte) : Bool := pre.all isPrefix

/-- The checks on an instruction. -/
def Instr.wf : Instr → Bool
  | .w p nxt => isPrefix p && (opcodeOf nxt).isNone
  | .loadiA _ => true
  | .loadiC _ => true
  | .loadiD _ => true
  | .loadiB _ => true
  | .loadi64A p _ => isPrefix p
  | .loadi64C p _ => isPrefix p
  | .loadi64D p _ => isPrefix p
  | .loadi64B p _ => isPrefix p
  | .movMR pre _ _ => prefixOk pre
  | .movRM pre _ _ => prefixOk pre
  | .add pre _ _ => prefixOk pre
  | .sub pre _ _ => prefixOk pre
  | .xor pre _ _ => prefixOk pre
  | .addi pre _ _ => prefixOk pre
  | .subi pre _ _ => prefixOk pre
  | .reserved81s1 pre _ _ => prefixOk pre
  | .reserved81s2 pre _ _ => prefixOk pre
  | .reserved81s3 pre _ _ => prefixOk pre
  | .reserved81s4 pre _ _ => prefixOk pre
  | .reserved81s6 pre _ _ => prefixOk pre
  | .reserved81s7 pre _ _ => prefixOk pre
  | .adda pre _ => prefixOk pre
  | .suba pre _ => prefixOk pre
  | .storei pre _ _ => prefixOk pre
  | .reservedC7s1 pre _ _ => prefixOk pre
  | .reservedC7s2 pre _ _ => prefixOk pre
  | .reservedC7s3 pre _ _ => prefixOk pre
  | .reservedC7s4 pre _ _ => prefixOk pre
  | .reservedC7s5 pre _ _ => prefixOk pre
  | .reservedC7s6 pre _ _ => prefixOk pre
  | .reservedC7s7 pre _ _ => prefixOk pre

end Sys2Proof
end

