-- ==== Sys2Proof/Safety.lean ====
section
/-! DEFINITION. The terms the claims are stated in: what a completed instruction leaves, what a taken fault leaves, where a
run has ended, and the lockstep invariant. -/

namespace Sys2Proof.Machine

/-- `t` is `s` after an instruction of `len` bytes that wrote `v` to register `d` and completed: the other registers, the
cursor, `STATUS` and every byte of the buffer are as before, `pc` has advanced by `len` (41_execute_common.md R111; 10_state.md
R25). -/
def Completed (s t : State) (d : Reg) (v : Word) (len : Nat) : Prop :=
  t.reg d = v ∧ (∀ r, r ≠ d → t.reg r = s.reg r) ∧ t.pc = s.pc + len ∧ t.cursor = s.cursor ∧
    t.status = s.status ∧ t.buf.size = s.buf.size ∧ ∀ a, t.readByte a = s.readByte a

/-- `t` is `s` after the fault `f` was taken: `STATUS` holds it, and every register, `pc`, the cursor and every byte of the
buffer are as before (60_exceptions.md R222, R223, R234). -/
def FaultTaken (s t : State) (f : Status) : Prop :=
  t.status = f ∧ (∀ r, t.reg r = s.reg r) ∧ t.pc = s.pc ∧ t.cursor = s.cursor ∧
    t.buf.size = s.buf.size ∧ ∀ a, t.readByte a = s.readByte a

/-- The register an instruction may write (10_state.md R22): none for the prefix row, the reserved rows, and a destination
field that names no register. -/
def destination : Instr → Option Reg
  | .w _ _ => none
  | .loadiA _ => some .A
  | .loadiC _ => some .C
  | .loadiD _ => some .D
  | .loadiB _ => some .B
  | .loadi64A _ _ => some .A
  | .loadi64C _ _ => some .C
  | .loadi64D _ _ => some .D
  | .loadi64B _ _ => some .B
  | .movMR _ _ rm => regOf rm
  | .movRM _ reg _ => regOf reg
  | .add _ _ rm => regOf rm
  | .sub _ _ rm => regOf rm
  | .xor _ _ rm => regOf rm
  | .addi _ rm _ => regOf rm
  | .subi _ rm _ => regOf rm
  | .reserved81s1 _ _ _ => none
  | .reserved81s2 _ _ _ => none
  | .reserved81s3 _ _ _ => none
  | .reserved81s4 _ _ _ => none
  | .reserved81s6 _ _ _ => none
  | .reserved81s7 _ _ _ => none
  | .adda _ _ => some .A
  | .suba _ _ => some .A
  | .storei _ rm _ => regOf rm
  | .reservedC7s1 _ _ _ => none
  | .reservedC7s2 _ _ _ => none
  | .reservedC7s3 _ _ _ => none
  | .reservedC7s4 _ _ _ => none
  | .reservedC7s5 _ _ _ => none
  | .reservedC7s6 _ _ _ => none
  | .reservedC7s7 _ _ _ => none

/-- The instruction with an optional prefix taken away; a form without an optional prefix is itself (30_encoding.md R63). -/
def withoutPrefix : Instr → Instr
  | .w p nxt => .w p nxt
  | .loadiA imm => .loadiA imm
  | .loadiC imm => .loadiC imm
  | .loadiD imm => .loadiD imm
  | .loadiB imm => .loadiB imm
  | .loadi64A p imm => .loadi64A p imm
  | .loadi64C p imm => .loadi64C p imm
  | .loadi64D p imm => .loadi64D p imm
  | .loadi64B p imm => .loadi64B p imm
  | .movMR _ reg rm => .movMR none reg rm
  | .movRM _ reg rm => .movRM none reg rm
  | .add _ reg rm => .add none reg rm
  | .sub _ reg rm => .sub none reg rm
  | .xor _ reg rm => .xor none reg rm
  | .addi _ rm imm => .addi none rm imm
  | .subi _ rm imm => .subi none rm imm
  | .reserved81s1 _ rm imm => .reserved81s1 none rm imm
  | .reserved81s2 _ rm imm => .reserved81s2 none rm imm
  | .reserved81s3 _ rm imm => .reserved81s3 none rm imm
  | .reserved81s4 _ rm imm => .reserved81s4 none rm imm
  | .reserved81s6 _ rm imm => .reserved81s6 none rm imm
  | .reserved81s7 _ rm imm => .reserved81s7 none rm imm
  | .adda _ imm => .adda none imm
  | .suba _ imm => .suba none imm
  | .storei _ rm imm => .storei none rm imm
  | .reservedC7s1 _ rm imm => .reservedC7s1 none rm imm
  | .reservedC7s2 _ rm imm => .reservedC7s2 none rm imm
  | .reservedC7s3 _ rm imm => .reservedC7s3 none rm imm
  | .reservedC7s4 _ rm imm => .reservedC7s4 none rm imm
  | .reservedC7s5 _ rm imm => .reservedC7s5 none rm imm
  | .reservedC7s6 _ rm imm => .reservedC7s6 none rm imm
  | .reservedC7s7 _ rm imm => .reservedC7s7 none rm imm

/-- Whether the byte at the cursor is a widening prefix (40_decoder.md R92). -/
def prefixAt (s : State) : Bool := (s.readByte s.cursor).any isPrefix

/-- Where DECODE_NEXT looks for the opcode: at the cursor, or after a prefix (R92, R93). -/
def opcodeOffset (s : State) : Nat := if prefixAt s then s.cursor + 1 else s.cursor

/-- The opcode DECODE_NEXT finds there, if there is a byte and it is an opcode (R93). -/
def opcodeAt (s : State) : Option Opcode := (s.readByte (opcodeOffset s)).bind opcodeOf

/-- The normal end of a run (49_run_result_host.md R201): nothing left to decode, no fault, the counters at `N`. -/
def EndedNormally (s : State) : Prop :=
  s.status = .running ∧ s.pc = s.buf.size ∧ s.cursor = s.buf.size

/-- The end of a run in a decode fault (R201, R202): both counters at the undecodable instruction, the offset not before it
and inside the buffer or at its end. -/
def EndedInDecodeFault (s : State) : Prop :=
  ∃ off reason, s.status = .decodeFault off reason ∧ s.pc = s.cursor ∧ s.pc ≤ off ∧ off ≤ s.buf.size

/-- The end of a run in an execute fault (R201, R202): the recorded position is `pc`, the cursor stands after the faulting
instruction, which is 2 to 10 bytes long and lies inside the buffer. -/
def EndedInExecuteFault (s : State) : Prop :=
  ∃ reason, s.status = .executeFault s.pc reason ∧ s.pc + 2 ≤ s.cursor ∧ s.cursor ≤ s.pc + maxLength ∧
    s.cursor ≤ s.buf.size

/-- THE LOCKSTEP INVARIANT of a run at an instruction boundary or after its end (R201, R202, 10_state.md R24, R28): the buffer
in its canonical form, the cursor inside it, and by `STATUS` either `pc = cursor` or the final state of one of the two
faults, of which an execute `UnknownOpcode` is none (41_execute_common.md R122). -/
def Lockstep (s : State) : Prop :=
  s.buf.wf ∧ s.cursor ≤ s.buf.size ∧
    ((s.status = .running ∧ s.pc = s.cursor) ∨ EndedInDecodeFault s ∨
      (EndedInExecuteFault s ∧ s.status ≠ .executeFault s.pc .unknownOpcode))

end Sys2Proof.Machine
end

