-- ==== Sys2Proof/Certificates/Slice0/Obligations.lean ====
section
/-! DEFINITION. The statements for the provers. A docstring names the rule of spec/ a statement formalises; where a clause rests
on a point the spec marks as its own decision or inference, it names that decision (92_eei_decisions.md) and the log entry. -/

open Sys2Proof Sys2Proof.Machine

/-! ## Encoding -/

/-- Words written out from the spec's encodings and examples decode to the instructions they stand for (R104, R131 to R138,
95_test_vectors.md; opcode bytes, among them which register B9, BA and BB name, by D2, field positions by D3, log 7). -/
def Obligations.SpecWordsDecode : Prop :=
  ∀ p ∈ ([([0xb8, 0x2a, 0, 0, 0], .loadiA 42),
      ([0xb9, 0xff, 0xff, 0xff, 0xff], .loadiC 0xffffffff),
      ([0xba, 0, 0, 0, 0x80], .loadiD 0x80000000),
      ([0xbb, 0x10, 0x27, 0, 0], .loadiB 10000),
      ([0x48, 0xb8, 0x88, 0x77, 0x66, 0x55, 0x44, 0x33, 0x22, 0x11], .loadi64A 0x48 0x1122334455667788),
      ([0x48, 0xb9, 0, 0, 0, 0, 0, 0, 0, 0x80], .loadi64C 0x48 0x8000000000000000),
      ([0x48, 0xba, 0x88, 0x77, 0x66, 0x55, 0x44, 0x33, 0x22, 0x11], .loadi64D 0x48 0x1122334455667788),
      ([0x48, 0xbb, 0, 0, 0, 0x80, 0, 0, 0, 0], .loadi64B 0x48 0x80000000),
      ([0x48, 0x89, 0xc3], .movMR (some 0x48) 0 3),
      ([0x8b, 0xd1], .movRM none 2 1),
      ([0x01, 0xc8], .add none 1 0),
      ([0x48, 0x29, 0xd8], .sub (some 0x48) 3 0),
      ([0x31, 0xd9], .xor none 3 1),
      ([0x48, 0x81, 0xc0, 2, 0, 0, 0], .addi (some 0x48) 0 2),
      ([0x81, 0xe9, 5, 0, 0, 0], .subi none 1 5),
      ([0x81, 0xcc, 1, 0, 0, 0], .reserved81s1 none 4 1),
      ([0x48, 0x05, 0xff, 0xff, 0xff, 0xff], .adda (some 0x48) 0xffffffff),
      ([0x2d, 1, 0, 0, 0], .suba none 1),
      ([0x48, 0xc7, 0xc2, 0xfe, 0xff, 0xff, 0xff], .storei (some 0x48) 2 0xfffffffe),
      ([0xc7, 0xf8, 1, 0, 0, 0], .reservedC7s7 none 0 1),
      ([0x48, 0x90], .w 0x48 0x90)] : List (List Byte × Instr)), decode p.1 = .instr p.2

/-- DECODE AND ENCODE AGREE: every well-formed instruction, with every operand at every value, decodes back from its bytes,
whatever bytes follow (R60, R61, R70, R71, R98). -/
def Obligations.DecodeOfEncodeIsTheInstruction : Prop :=
  ∀ (i : Instr) (rest : List Byte), i.wf = true → decode (encode i ++ rest) = .instr i

/-- What decodes was encoded: a decoded instruction is well formed and the bytes begin with its encoding, so no two
instructions share bytes and no bit of them is ignored (R60, R63, R74, R98). -/
def Obligations.DecodedBytesAreItsEncoding : Prop :=
  ∀ (bs : List Byte) (i : Instr), decode bs = .instr i → i.wf = true ∧ ∃ rest, bs = encode i ++ rest

/-- The Decoder looks at no more than ten bytes (R60, R62). -/
def Obligations.DecodeLooksAtTenBytes : Prop :=
  ∀ bs : List Byte, decode (bs.take 10) = decode bs

/-- The opcode map is thirteen bytes (R70): the other 243 byte values are no opcode (R72), none of the thirteen is a prefix
(R63 item 4), an unlisted byte that is no prefix raises `UnknownOpcode` before any other byte is read (R72, R93), and one after a
prefix is read as the opcode, another prefix included (R99). Byte values by D2, offsets by D6, one prefix by D13 (log 7). -/
def Obligations.OtherBytesAreNoOpcode : Prop :=
  (∀ b : Byte, (opcodeOf b).isSome = true ↔
      b ∈ ([0xb8, 0xb9, 0xba, 0xbb, 0x89, 0x8b, 0x01, 0x29, 0x81, 0x05, 0x2d, 0xc7, 0x31] : List Byte)) ∧
    ((List.range 256).filter fun n => (opcodeOf (BitVec.ofNat 8 n)).isNone).length = 243 ∧
    (∀ b : Byte, isPrefix b = true → opcodeOf b = none) ∧
    (∀ (b : Byte) (rest : List Byte), opcodeOf b = none → isPrefix b = false →
      decode (b :: rest) = .fault 0 .unknownOpcode) ∧
    ∀ (p b : Byte) (rest : List Byte), isPrefix p = true → opcodeOf b = none →
      decode (p :: b :: rest) = .instr (.w p b)

/-- The addressing-mode check (R65, R94) and its place before the immediate (R95, R233): for each opcode with an operand
byte, the 64 bytes 0xC0 to 0xFF pass and the others raise `UnsupportedAddressingMode`, whatever follows; a byte that passes
decodes, where an imm32 is due only if four bytes follow, and `TruncatedImmediate` is raised otherwise, sub-selector and register
code unseen. Pattern and positions by D3, offsets by D6 (log 7). -/
def Obligations.AddressingModeIsCheckedFirst : Prop :=
  (∀ m : Byte, modField m = modDirect ↔ 0xc0 ≤ m.toNat) ∧
    (∀ (k : OMOp) (m : Byte) (rest : List Byte),
      (0xc0 ≤ m.toNat → ∃ i, decode ((Opcode.om k).byte :: m :: rest) = .instr i ∧ i.length = 2) ∧
        (m.toNat < 0xc0 → decode ((Opcode.om k).byte :: m :: rest) = .fault 1 .unsupportedAddressingMode)) ∧
    ∀ (k : OMIOp) (m : Byte) (rest : List Byte),
      (0xc0 ≤ m.toNat → 4 ≤ rest.length → ∃ i, decode ((Opcode.omi k).byte :: m :: rest) = .instr i ∧ i.length = 6) ∧
        (0xc0 ≤ m.toNat → rest.length < 4 → decode ((Opcode.omi k).byte :: m :: rest) = .fault 2 .truncatedImmediate) ∧
        (m.toNat < 0xc0 → decode ((Opcode.omi k).byte :: m :: rest) = .fault 1 .unsupportedAddressingMode)

/-! ## The step and the run -/

/-- A STEP RUNS THE DECODED INSTRUCTION: where the bytes at the cursor decode to an instruction, the step is EXECUTE of it
at the state whose cursor has moved past its bytes (R97, R200). For `w` no EXECUTE happens: DECODE_NEXT raises its fault, and the
step ends in the state that the arm of `w` gives (R98; log 2). -/
def Obligations.StepRunsTheDecodedInstruction : Prop :=
  ∀ (s : State) (i : Instr), s.status = .running → decode (window s) = .instr i →
    step s = exec i (advanceCursor s i.length)

/-- A step runs the instruction whose bytes stand in the buffer at the cursor (R40, R97, R98, R200). For `w` no EXECUTE happens and
the cursor stays: DECODE_NEXT raises its fault, and the step ends in the state that the arm of `w` gives (R98; log 2). -/
def Obligations.StepRunsTheEncodedInstruction : Prop :=
  ∀ (s : State) (i : Instr), s.status = .running → i.wf = true →
    (∀ k, k < (encode i).length → s.readByte (s.cursor + k) = (encode i)[k]?) →
    step s = exec i (advanceCursor s i.length)

/-- Where the bytes at the cursor are no instruction, the step takes the decode fault and nothing else changes (R222; the
cursor stays by D7, log 7). -/
def Obligations.StepTakesTheDecodeFault : Prop :=
  ∀ (s : State) (off : Nat) (reason : DecodeReason), s.status = .running → s.cursor < s.buf.size →
    decode (window s) = .fault off reason →
    ∃ t, step s = .next t ∧ FaultTaken s t (.decodeFault (s.cursor + off) reason)

/-- HAS_MORE (R91). -/
def Obligations.HasMoreIffUnreadBytes : Prop :=
  (∀ s : State, hasMore s = true ↔ s.cursor < s.buf.size) ∧
    (∀ s : State, s.buf.size = 0 → hasMore s = false) ∧
    hasMore (resetOnto (Memory.ofBytes [0x48])) = true ∧
    ∃ t off reason, step (resetOnto (Memory.ofBytes [0x48])) = .next t ∧ t.status = .decodeFault off reason

/-- A step answers a next state exactly where the run is not over: `Running` with bytes left; at the end of the buffer it
stops as exhausted, after a fault as terminal; it never refuses (R100, R102, R201, R236; the two names of the stop are the
model's, log 3). -/
def Obligations.StepAnswersUntilTheRunIsOver : Prop :=
  ∀ s : State,
    ((∃ t, step s = .next t) ↔ (s.status = .running ∧ s.cursor < s.buf.size)) ∧
      (s.status = .running → s.buf.size ≤ s.cursor → step s = .fault .exhausted) ∧
      (s.status ≠ .running → step s = .fault .terminal)

/-- Every instruction, with every operand, answers a next state in `Running`, and only there (R100, R110, R112). -/
def Obligations.EveryInstructionAnswersInRunning : Prop :=
  ∀ (i : Instr) (s : State), (∃ t, exec i s = .next t) ↔ s.status = .running

/-- Fault entry (R234): its whole effect is `STATUS`; no register is saved anywhere and `pc` does not move; and the fault state
is terminal: no step, no DECODE_NEXT and no EXECUTE follows, and it is not a normal end. -/
def Obligations.FaultStateIsTerminal : Prop :=
  ∀ (s : State) (f : Status), f ≠ .running →
    FaultTaken s (takeFault s f) f ∧ step (takeFault s f) = .fault .terminal ∧
      decodeNext (takeFault s f) = .noStep ∧ (∀ i, exec i (takeFault s f) = .fault .terminal) ∧
      ¬ EndedNormally (takeFault s f)

/-- The Decoder never touches registers or `pc` and never writes the buffer: a DECODE_NEXT moves the cursor by the consumed
length, or takes a decode fault with the cursor in place (R97, R98, R100, R101; the cursor's place by D7, log 7). -/
def Obligations.DecodeNextTouchesNoRegister : Prop :=
  ∀ s : State,
    (∀ r i t, decodeNext s = .decoded r i t →
      t.cursor = s.cursor + r.length ∧ t.pc = s.pc ∧ t.status = s.status ∧ (∀ r, t.reg r = s.reg r) ∧ t.buf = s.buf) ∧
      ∀ t, decodeNext s = .faulted t → ∃ off reason, FaultTaken s t (.decodeFault off reason)

/-- The offset a decode fault carries (R96, by D6; log 7), for a step. `opcodeOffset` is the cursor, or one more where the byte
there is a prefix. `TruncatedInput` is at `N`, where the opcode is missing, or the operand byte of an opcode that has one;
`UnknownOpcode` at the opcode byte; `UnsupportedAddressingMode` at the operand byte, right after the opcode; `TruncatedImmediate`
at the immediate's first byte, right after the opcode or the operand byte, with fewer bytes left there than the opcode asks
for: eight after a prefixed load opcode, else four. -/
def Obligations.DecodeFaultOffsets : Prop :=
  ∀ (s t : State) (pos : Nat) (reason : DecodeReason), step s = .next t → t.status = .decodeFault pos reason →
    t.cursor = s.cursor ∧ pos ≤ s.buf.size ∧
      (reason = .truncatedInput → pos = s.buf.size ∧
        (pos = opcodeOffset s ∨
          (pos = opcodeOffset s + 1 ∧ ((∃ k, opcodeAt s = some (.om k)) ∨ ∃ k, opcodeAt s = some (.omi k))))) ∧
      (reason = .unknownOpcode → pos = opcodeOffset s ∧ ∃ b, s.readByte pos = some b ∧ opcodeOf b = none) ∧
      (reason = .unsupportedAddressingMode → pos = opcodeOffset s + 1 ∧
        ((∃ k, opcodeAt s = some (.om k)) ∨ ∃ k, opcodeAt s = some (.omi k)) ∧
        ∃ m, s.readByte pos = some m ∧ modField m ≠ modDirect) ∧
      (reason = .truncatedImmediate →
        (∃ r, opcodeAt s = some (.oi r) ∧ pos = opcodeOffset s + 1 ∧
            s.buf.size < pos + (if prefixAt s then 8 else 4)) ∨
          (∃ k, opcodeAt s = some (.ai k) ∧ pos = opcodeOffset s + 1 ∧ s.buf.size < pos + 4) ∨
          (∃ k m, opcodeAt s = some (.omi k) ∧ s.readByte (opcodeOffset s + 1) = some m ∧ modField m = modDirect ∧
            pos = opcodeOffset s + 2 ∧ s.buf.size < pos + 4))

/-- `pc` advances only by the exact length of the completed instruction, prefix included: as many bytes as its encoding has, from
the cursor on, all inside the buffer; and the cursor with it. An execute fault leaves `pc`, with the cursor after the
instruction (R25, R97, R201; the list of lengths is an inference of the spec, R62 of 30_encoding.md). -/
def Obligations.CountersMoveByTheLength : Prop :=
  ∀ s t : State, step s = .next t →
    (t.status = .running →
      ∃ i, decode (window s) = .instr i ∧ i.length = (encode i).length ∧ i.length ∈ [2, 3, 5, 6, 7, 10] ∧
        t.pc = s.pc + i.length ∧ t.cursor = s.cursor + i.length ∧ t.cursor ≤ s.buf.size) ∧
      ∀ pos reason, t.status = .executeFault pos reason →
        ∃ i, decode (window s) = .instr i ∧ i.length = (encode i).length ∧ i.length ∈ [2, 3, 5, 6, 7, 10] ∧
          pos = s.pc ∧ t.pc = s.pc ∧ t.cursor = s.cursor + i.length ∧ t.cursor ≤ s.buf.size

/-- Nothing writes the instruction buffer: every byte reads after a step as before it (R41, an inference of the spec, and R51 by
D17; log 4). -/
def Obligations.StepNeverWritesTheBuffer : Prop :=
  ∀ s t : State, step s = .next t → t.buf.size = s.buf.size ∧ ∀ a, t.readByte a = s.readByte a

/-- The lockstep invariant holds after every reset, whatever buffer the host binds (R250; R202, an inference of the spec). That
the empty buffer is the one of `State.reset` is the model's choice (log 5), and so is the canonical form (log 4); `cursor` 0 is D24
and `STATUS` Running D15 (log 7). -/
def Obligations.ResetMeetsLockstep : Prop :=
  Lockstep State.reset ∧ ∀ bs : List Byte, Lockstep (resetOnto (Memory.ofBytes bs))

/-- THE LOCKSTEP INVARIANT IS KEPT BY EVERY STEP (R201, and R202, R26, inferences of the spec): the buffer's canonical form (log 4),
`pc = cursor` inside the buffer while `Running`, the final states of R201 after a fault, no execute `UnknownOpcode` (R122). -/
def Obligations.StepKeepsLockstep : Prop :=
  ∀ s t : State, Lockstep s → step s = .next t → Lockstep t

/-- EVERY RUN ENDS (R201, an inference of the spec): from every state that meets the lockstep invariant, in at most one step for every two bytes left and
one more, the machine reaches a state without a step, in one of the three ends. -/
def Obligations.EveryRunEnds : Prop :=
  ∀ s : State, Lockstep s →
    ∃ k t, k ≤ (s.buf.size - s.cursor) / 2 + 1 ∧ Host.Core.run core k s = .next t ∧
      (∃ f, step t = .fault f) ∧ (EndedNormally t ∨ EndedInDecodeFault t ∨ EndedInExecuteFault t)

/-- The host's RUN of any bytes ends in one of the three ends (R200; R201, an inference of the spec), the buffer as it was bound
(R41, an inference of the spec, and R51 by D17, log 7). -/
def Obligations.HostRunReachesAnEnd : Prop :=
  ∀ bs : List Byte,
    (∃ f, step (run bs) = .fault f) ∧ (run bs).buf = Memory.ofBytes bs ∧
      (EndedNormally (run bs) ∨ EndedInDecodeFault (run bs) ∨ EndedInExecuteFault (run bs))

/-! ## EXECUTE: frames -/

/-- Atomic commit (R111), for every instruction: it writes its one destination register and `pc`, or latches a fault and changes
nothing else; the cursor and every byte of the buffer are as before in both cases. All reads happen before the write: where the
source is the destination, each of the five register-to-register instructions uses the old value on the right-hand side. -/
def Obligations.ExecuteCommitsAllOrNothing : Prop :=
  (∀ (i : Instr) (s t : State), exec i s = .next t →
    (∃ d v, destination i = some d ∧ Completed s t d v i.length) ∨ ∃ f, f ≠ .running ∧ FaultTaken s t f) ∧
    ∀ (pre : Option Byte) (c : BitVec 3) (d : Reg) (s t : State), regOf c = some d → t.status = .running →
      (exec (.add pre c c) s = .next t → (t.reg d).toInt = (s.reg d).toInt + (s.reg d).toInt) ∧
        (exec (.sub pre c c) s = .next t → (t.reg d).toInt = (s.reg d).toInt - (s.reg d).toInt) ∧
        (exec (.xor pre c c) s = .next t → t.reg d = s.reg d ^^^ s.reg d) ∧
        (exec (.movMR pre c c) s = .next t ∨ exec (.movRM pre c c) s = .next t → t.reg d = s.reg d)

/-- `raise ExecuteFault` (R223), for every instruction: an execute fault records the unchanged `pc`, leaves the registers, `pc`
and the cursor as they were, and ends the run. -/
def Obligations.ExecuteFaultIsPrecise : Prop :=
  ∀ (i : Instr) (s t : State) (pos : Nat) (reason : ExecuteReason),
    exec i s = .next t → t.status = .executeFault pos reason →
    pos = s.pc ∧ FaultTaken s t (.executeFault s.pc reason) ∧ step t = .fault .terminal

/-- The prefix changes nothing but the length where it is optional (R63 item 2, R113, by D12; log 7): with and without it the
registers and `STATUS` come out the same, and `pc` differs by the difference of the lengths if the instruction completed. -/
def Obligations.OptionalPrefixChangesOnlyThePc : Prop :=
  ∀ (i : Instr) (s t : State), exec i s = .next t →
    ∃ u, exec (withoutPrefix i) s = .next u ∧ (∀ r, u.reg r = t.reg r) ∧ u.status = t.status ∧
      u.cursor = t.cursor ∧ u.buf = t.buf ∧
      (t.status = .running → t.pc + (withoutPrefix i).length = u.pc + i.length) ∧
      (t.status ≠ .running → t.pc = u.pc)

/-! ## EXECUTE: what each instruction does -/

/-- `LOADI A, imm32` (R131), encoding, effect, frame and corner cases. -/
def Obligations.LoadiALoadsTheSignExtendedImmediate : Prop :=
  (∀ (i0 i1 i2 i3 : Byte) (rest : List Byte), ∃ imm : BitVec 32,
    decode (0xb8 :: i0 :: i1 :: i2 :: i3 :: rest) = .instr (.loadiA imm) ∧
      imm.toNat = i0.toNat + 2 ^ 8 * i1.toNat + 2 ^ 16 * i2.toNat + 2 ^ 24 * i3.toNat) ∧
    (∀ (imm : BitVec 32) (s : State), s.status = .running →
      ∃ t, exec (.loadiA imm) s = .next t ∧ Completed s t .A (sext64 imm) 5) ∧
    sext64 0x80000000 = 0xffffffff80000000 ∧ (sext64 0x80000000).toInt = min32 ∧
    (sext64 0xffffffff).toInt = -1 ∧ sext64 0 = 0 ∧ sext64 0x2a = 42

/-- `W LOADI64 A, imm64` (R135), encoding with every prefix byte, effect, frame and corner cases. -/
def Obligations.Loadi64ALoadsTheRawImmediate : Prop :=
  isPrefix 0x48 = true ∧
    (∀ (p i0 i1 i2 i3 i4 i5 i6 i7 : Byte) (rest : List Byte), isPrefix p = true → ∃ imm : BitVec 64,
      decode (p :: 0xb8 :: i0 :: i1 :: i2 :: i3 :: i4 :: i5 :: i6 :: i7 :: rest) = .instr (.loadi64A p imm) ∧
        imm.toNat = i0.toNat + 2 ^ 8 * i1.toNat + 2 ^ 16 * i2.toNat + 2 ^ 24 * i3.toNat + 2 ^ 32 * i4.toNat
          + 2 ^ 40 * i5.toNat + 2 ^ 48 * i6.toNat + 2 ^ 56 * i7.toNat) ∧
    (∀ (p : Byte) (imm : BitVec 64) (s : State), s.status = .running →
      ∃ t, exec (.loadi64A p imm) s = .next t ∧ Completed s t .A imm 10) ∧
    ∀ tail : List Byte, tail.length < 4 →
      ∃ off, decode (0x48 :: 0xb8 :: 0x2a :: 0 :: 0 :: 0 :: tail) = .fault off .truncatedImmediate

/-- The four 32-bit loads (R131 to R134): the register of the opcode takes the sign-extended immediate; never a fault. -/
def Obligations.LoadImmediate32Completes : Prop :=
  ∀ (imm : BitVec 32) (s : State), s.status = .running →
    (∃ t, exec (.loadiA imm) s = .next t ∧ Completed s t .A (imm.signExtend 64) 5) ∧
      (∃ t, exec (.loadiC imm) s = .next t ∧ Completed s t .C (imm.signExtend 64) 5) ∧
      (∃ t, exec (.loadiD imm) s = .next t ∧ Completed s t .D (imm.signExtend 64) 5) ∧
      ∃ t, exec (.loadiB imm) s = .next t ∧ Completed s t .B (imm.signExtend 64) 5

/-- The four 64-bit loads (R135 to R138): the register of the opcode takes the raw immediate; never a fault. -/
def Obligations.LoadImmediate64Completes : Prop :=
  ∀ (p : Byte) (imm : BitVec 64) (s : State), s.status = .running →
    (∃ t, exec (.loadi64A p imm) s = .next t ∧ Completed s t .A imm 10) ∧
      (∃ t, exec (.loadi64C p imm) s = .next t ∧ Completed s t .C imm 10) ∧
      (∃ t, exec (.loadi64D p imm) s = .next t ∧ Completed s t .D imm 10) ∧
      ∃ t, exec (.loadi64B p imm) s = .next t ∧ Completed s t .B imm 10

/-- The two moves (R140, R141): the same operand byte with the roles exchanged; all 64 bits are copied (roles by D4, log 7). -/
def Obligations.MovesComplete : Prop :=
  ∀ (pre : Option Byte) (reg rm : BitVec 3) (q r : Reg) (s : State), s.status = .running →
    regOf reg = some q → regOf rm = some r →
    (∃ t, exec (.movMR pre reg rm) s = .next t ∧ Completed s t r (s.reg q) (lengthWith pre 2)) ∧
      ∃ t, exec (.movRM pre reg rm) s = .next t ∧ Completed s t q (s.reg r) (lengthWith pre 2)

/-- `ADD` (R150): where the exact sum is in `S64` the destination takes it (roles by D4, log 7). -/
def Obligations.AddCompletes : Prop :=
  ∀ (pre : Option Byte) (reg rm : BitVec 3) (q r : Reg) (s : State), s.status = .running →
    regOf reg = some q → regOf rm = some r →
    min64 ≤ (s.reg r).toInt + (s.reg q).toInt → (s.reg r).toInt + (s.reg q).toInt ≤ max64 →
    ∃ t v, exec (.add pre reg rm) s = .next t ∧ v.toInt = (s.reg r).toInt + (s.reg q).toInt ∧
      Completed s t r v (lengthWith pre 2)

/-- `SUB` (R151): where the exact difference is in `S64` the destination takes it (roles by D4, log 7). -/
def Obligations.SubCompletes : Prop :=
  ∀ (pre : Option Byte) (reg rm : BitVec 3) (q r : Reg) (s : State), s.status = .running →
    regOf reg = some q → regOf rm = some r →
    min64 ≤ (s.reg r).toInt - (s.reg q).toInt → (s.reg r).toInt - (s.reg q).toInt ≤ max64 →
    ∃ t v, exec (.sub pre reg rm) s = .next t ∧ v.toInt = (s.reg r).toInt - (s.reg q).toInt ∧
      Completed s t r v (lengthWith pre 2)

/-- `XOR` (R190): every bit of the destination is the exclusive or of the two old bits (roles by D4, log 7). -/
def Obligations.XorCompletes : Prop :=
  ∀ (pre : Option Byte) (reg rm : BitVec 3) (q r : Reg) (s : State), s.status = .running →
    regOf reg = some q → regOf rm = some r →
    ∃ t v, exec (.xor pre reg rm) s = .next t ∧
      (∀ k, v.getLsbD k = ((s.reg r).getLsbD k ^^ (s.reg q).getLsbD k)) ∧ Completed s t r v (lengthWith pre 2)

/-- `ADDI` and `SUBI` (R160, R161): with the sign-extended immediate, where the exact result is in `S64` (positions by D3, roles
by D4, log 7). -/
def Obligations.AddiSubiComplete : Prop :=
  ∀ (pre : Option Byte) (rm : BitVec 3) (imm : BitVec 32) (r : Reg) (s : State), s.status = .running →
    regOf rm = some r →
    (min64 ≤ (s.reg r).toInt + imm.toInt → (s.reg r).toInt + imm.toInt ≤ max64 →
      ∃ t v, exec (.addi pre rm imm) s = .next t ∧ v.toInt = (s.reg r).toInt + imm.toInt ∧
        Completed s t r v (lengthWith pre 6)) ∧
      (min64 ≤ (s.reg r).toInt - imm.toInt → (s.reg r).toInt - imm.toInt ≤ max64 →
        ∃ t v, exec (.subi pre rm imm) s = .next t ∧ v.toInt = (s.reg r).toInt - imm.toInt ∧
          Completed s t r v (lengthWith pre 6))

/-- `ADDA` and `SUBA` (R170, R171): on register A with the sign-extended immediate, where the exact result is in `S64`. -/
def Obligations.AddaSubaComplete : Prop :=
  ∀ (pre : Option Byte) (imm : BitVec 32) (s : State), s.status = .running →
    (min64 ≤ (s.reg .A).toInt + imm.toInt → (s.reg .A).toInt + imm.toInt ≤ max64 →
      ∃ t v, exec (.adda pre imm) s = .next t ∧ v.toInt = (s.reg .A).toInt + imm.toInt ∧
        Completed s t .A v (lengthWith pre 5)) ∧
      (min64 ≤ (s.reg .A).toInt - imm.toInt → (s.reg .A).toInt - imm.toInt ≤ max64 →
        ∃ t v, exec (.suba pre imm) s = .next t ∧ v.toInt = (s.reg .A).toInt - imm.toInt ∧
          Completed s t .A v (lengthWith pre 5))

/-- `STOREI` (R180): a direct assignment of the sign-extended immediate, 32-bit with or without the prefix. -/
def Obligations.StoreiCompletes : Prop :=
  ∀ (pre : Option Byte) (rm : BitVec 3) (imm : BitVec 32) (r : Reg) (s : State), s.status = .running →
    regOf rm = some r →
    ∃ t, exec (.storei pre rm imm) s = .next t ∧ Completed s t r (imm.signExtend 64) (lengthWith pre 6)

/-- Reserved sub-selectors of opcode 81 (R162): each takes `UnsupportedSubOpcode`, also where the register code is 4 to 7 (the
order is D18, log 7). -/
def Obligations.ReservedGroup1Faults : Prop :=
  ∀ (pre : Option Byte) (rm : BitVec 3) (imm : BitVec 32) (s : State), s.status = .running →
    ∀ i ∈ [Instr.reserved81s1 pre rm imm, .reserved81s2 pre rm imm, .reserved81s3 pre rm imm,
        .reserved81s4 pre rm imm, .reserved81s6 pre rm imm, .reserved81s7 pre rm imm],
      ∃ t, exec i s = .next t ∧ FaultTaken s t (.executeFault s.pc .unsupportedSubOpcode)

/-- Reserved sub-selectors of opcode C7 (R181): each takes `UnsupportedSubOpcode`, also where the register code is 4 to 7 (the
order is D18, log 7). -/
def Obligations.ReservedStoreFaults : Prop :=
  ∀ (pre : Option Byte) (rm : BitVec 3) (imm : BitVec 32) (s : State), s.status = .running →
    ∀ i ∈ [Instr.reservedC7s1 pre rm imm, .reservedC7s2 pre rm imm, .reservedC7s3 pre rm imm,
        .reservedC7s4 pre rm imm, .reservedC7s5 pre rm imm, .reservedC7s6 pre rm imm, .reservedC7s7 pre rm imm],
      ∃ t, exec i s = .next t ∧ FaultTaken s t (.executeFault s.pc .unsupportedSubOpcode)

/-- A widening prefix with no opcode after it (R93, R99): `UnknownOpcode` at the byte after the prefix, nothing else changed. That
this is the meaning of the table's prefix row is the model's reading (log 2); the offset is D6. -/
def Obligations.PrefixWithoutOpcodeFaults : Prop :=
  ∀ (p nxt : Byte) (s : State), s.status = .running →
    ∃ t, exec (.w p nxt) s = .next t ∧ FaultTaken s t (.decodeFault (s.cursor + 1) .unknownOpcode)

/-- The table of register codes, 0 A, 1 C, 2 D, 3 B (R21); and codes 4 to 7 in a field used as a register take `InvalidRegister`
(R120, by D5; log 7): both fields of format `OM`, the `rm` field of ADDI, SUBI and STOREI. -/
def Obligations.InvalidRegisterFaults : Prop :=
  (regOf 0 = some .A ∧ regOf 1 = some .C ∧ regOf 2 = some .D ∧ regOf 3 = some .B) ∧
    (∀ c : BitVec 3, regOf c = none ↔ 4 ≤ c.toNat) ∧
    (∀ (pre : Option Byte) (reg rm : BitVec 3) (s : State), s.status = .running →
      (4 ≤ reg.toNat ∨ 4 ≤ rm.toNat) →
      ∀ i ∈ [Instr.movMR pre reg rm, .movRM pre reg rm, .add pre reg rm, .sub pre reg rm, .xor pre reg rm],
        ∃ t, exec i s = .next t ∧ FaultTaken s t (.executeFault s.pc .invalidRegister)) ∧
    ∀ (pre : Option Byte) (rm : BitVec 3) (imm : BitVec 32) (s : State), s.status = .running → 4 ≤ rm.toNat →
      ∀ i ∈ [Instr.addi pre rm imm, .subi pre rm imm, .storei pre rm imm],
        ∃ t, exec i s = .next t ∧ FaultTaken s t (.executeFault s.pc .invalidRegister)

/-- Overflow is a fault (R116): for the six add and subtract instructions, an exact result outside `S64` takes
`ArithmeticOverflow`, with the destination and `pc` as they were and the run over; and no other instruction takes it. Which
register is the destination is D4, and that `MIN64 + MIN64` and `0 - MIN64` fault too is D8 (log 7). -/
def Obligations.OverflowFaultsAndNeverWraps : Prop :=
  (∀ (pre : Option Byte) (reg rm : BitVec 3) (q r : Reg) (s : State), s.status = .running →
    regOf reg = some q → regOf rm = some r →
    (((s.reg r).toInt + (s.reg q).toInt < min64 ∨ max64 < (s.reg r).toInt + (s.reg q).toInt) →
      ∃ t, exec (.add pre reg rm) s = .next t ∧ FaultTaken s t (.executeFault s.pc .arithmeticOverflow) ∧
        step t = .fault .terminal) ∧
      (((s.reg r).toInt - (s.reg q).toInt < min64 ∨ max64 < (s.reg r).toInt - (s.reg q).toInt) →
        ∃ t, exec (.sub pre reg rm) s = .next t ∧ FaultTaken s t (.executeFault s.pc .arithmeticOverflow) ∧
          step t = .fault .terminal)) ∧
    (∀ (pre : Option Byte) (rm : BitVec 3) (imm : BitVec 32) (r : Reg) (s : State), s.status = .running →
      regOf rm = some r →
      (((s.reg r).toInt + imm.toInt < min64 ∨ max64 < (s.reg r).toInt + imm.toInt) →
        ∃ t, exec (.addi pre rm imm) s = .next t ∧ FaultTaken s t (.executeFault s.pc .arithmeticOverflow) ∧
          step t = .fault .terminal) ∧
        (((s.reg r).toInt - imm.toInt < min64 ∨ max64 < (s.reg r).toInt - imm.toInt) →
          ∃ t, exec (.subi pre rm imm) s = .next t ∧ FaultTaken s t (.executeFault s.pc .arithmeticOverflow) ∧
            step t = .fault .terminal)) ∧
    (∀ (pre : Option Byte) (imm : BitVec 32) (s : State), s.status = .running →
      (((s.reg .A).toInt + imm.toInt < min64 ∨ max64 < (s.reg .A).toInt + imm.toInt) →
        ∃ t, exec (.adda pre imm) s = .next t ∧ FaultTaken s t (.executeFault s.pc .arithmeticOverflow) ∧
          step t = .fault .terminal) ∧
        (((s.reg .A).toInt - imm.toInt < min64 ∨ max64 < (s.reg .A).toInt - imm.toInt) →
          ∃ t, exec (.suba pre imm) s = .next t ∧ FaultTaken s t (.executeFault s.pc .arithmeticOverflow) ∧
            step t = .fault .terminal)) ∧
    ∀ (i : Instr) (s t : State) (pos : Nat), exec i s = .next t → t.status = .executeFault pos .arithmeticOverflow →
      (∃ pre reg rm, i = .add pre reg rm) ∨ (∃ pre reg rm, i = .sub pre reg rm) ∨
        (∃ pre rm imm, i = .addi pre rm imm) ∨ (∃ pre rm imm, i = .subi pre rm imm) ∨
        (∃ pre imm, i = .adda pre imm) ∨ ∃ pre imm, i = .suba pre imm

/-! ## The ALU -/

/-- `alu_add` (R114): the exact sum where it is in `S64`, no result where it is not; and the same in bits. -/
def Obligations.AddIsExactAndMatchesTheBitFormula : Prop :=
  ∀ a b : Word,
    (-(2 ^ 64) ≤ a.toInt + b.toInt ∧ a.toInt + b.toInt ≤ 2 ^ 64 - 2) ∧
      (∀ w, aluAdd a b = some w ↔
        (min64 ≤ a.toInt + b.toInt ∧ a.toInt + b.toInt ≤ max64 ∧ w.toInt = a.toInt + b.toInt)) ∧
      (aluAdd a b = none ↔ (a.getLsbD 63 = b.getLsbD 63 ∧ (a + b).getLsbD 63 ≠ a.getLsbD 63)) ∧
      (addOverflowBits a b = true ↔ aluAdd a b = none) ∧
      (aluAdd a b ≠ none → aluAdd a b = some (a + b))

/-- `alu_sub` (R115): the exact difference where it is in `S64`, no result where it is not; and the same in bits. -/
def Obligations.SubIsExactAndMatchesTheBitFormula : Prop :=
  ∀ a b : Word,
    (-(2 ^ 64) + 1 ≤ a.toInt - b.toInt ∧ a.toInt - b.toInt ≤ 2 ^ 64 - 1) ∧
      (∀ w, aluSub a b = some w ↔
        (min64 ≤ a.toInt - b.toInt ∧ a.toInt - b.toInt ≤ max64 ∧ w.toInt = a.toInt - b.toInt)) ∧
      (aluSub a b = none ↔ (a.getLsbD 63 ≠ b.getLsbD 63 ∧ (a - b).getLsbD 63 ≠ a.getLsbD 63)) ∧
      (subOverflowBits a b = true ↔ aluSub a b = none) ∧
      (aluSub a b ≠ none → aluSub a b = some (a - b))

/-- The source's sign rule read with strict "> 0" and "< 0" misses exactly two overflows, `MIN64 + MIN64` and `0 - MIN64`, and
finds no false one (R117; that these two fault is D8, log 7). -/
def Obligations.StrictSignRuleMissesTwoCases : Prop :=
  ∀ a b : Word,
    (aluAdd a b = none ↔
      ((0 < a.toInt ∧ 0 < b.toInt ∧ (a + b).toInt < 0) ∨ (a.toInt < 0 ∧ b.toInt < 0 ∧ 0 < (a + b).toInt) ∨
        (a.toInt = min64 ∧ b.toInt = min64))) ∧
      (aluSub a b = none ↔
        ((0 < a.toInt ∧ b.toInt < 0 ∧ (a - b).toInt < 0) ∨ (a.toInt < 0 ∧ 0 < b.toInt ∧ 0 < (a - b).toInt) ∨
          (a.toInt = 0 ∧ b.toInt = min64)))

/-- `sext_64` (R119): the low 32 bits are the immediate's, the others its bit 31; as integers it is the identity, and every
value lies in the range of R67. -/
def Obligations.SignExtensionKeepsTheValue : Prop :=
  ∀ v : BitVec 32,
    (∀ k, k < 32 → (sext64 v).getLsbD k = v.getLsbD k) ∧
      (∀ k, 32 ≤ k → k < 64 → (sext64 v).getLsbD k = v.getLsbD 31) ∧
      (sext64 v).toInt = v.toInt ∧ min32 ≤ (sext64 v).toInt ∧ (sext64 v).toInt ≤ max32

/-- `ADD r, r` doubles `r`, completing in full, where `sval(r)` is from -2^62 to 2^62 - 1, and faults, with nothing else changed,
exactly where it is at least 2^62 or below -2^62 (R127 item 3, an inference of the spec). -/
def Obligations.DoublingFaultsExactlyOutsideTheRange : Prop :=
  ∀ (pre : Option Byte) (c : BitVec 3) (d : Reg) (s : State), s.status = .running → regOf c = some d →
    ∃ t, exec (.add pre c c) s = .next t ∧
      (t.status = .executeFault s.pc .arithmeticOverflow ↔
        (2 ^ 62 ≤ (s.reg d).toInt ∨ (s.reg d).toInt < -(2 ^ 62))) ∧
      (t.status = .executeFault s.pc .arithmeticOverflow →
        FaultTaken s t (.executeFault s.pc .arithmeticOverflow)) ∧
      (-(2 ^ 62) ≤ (s.reg d).toInt → (s.reg d).toInt < 2 ^ 62 →
        t.status = .running ∧ (t.reg d).toInt = 2 * (s.reg d).toInt ∧ Completed s t d (t.reg d) (lengthWith pre 2))

/-- `SUB r, r` and `XOR r, r` always yield 0 and never fault (R127 item 4, an inference of the spec). -/
def Obligations.SelfSubtractAndSelfXorClear : Prop :=
  ∀ (pre : Option Byte) (c : BitVec 3) (d : Reg) (s : State), s.status = .running → regOf c = some d →
    (∃ t, exec (.sub pre c c) s = .next t ∧ Completed s t d 0 (lengthWith pre 2)) ∧
      ∃ t, exec (.xor pre c c) s = .next t ∧ Completed s t d 0 (lengthWith pre 2)

/-- Subtracting `MIN64` completes in full, adding 2^63, from negative values, and faults, with nothing else changed, exactly from
the others (R127 item 5, an inference of the spec; roles by D4, `0 - MIN64` by D8, log 7). -/
def Obligations.SubtractingMin64FaultsFromNonNegative : Prop :=
  ∀ (pre : Option Byte) (reg rm : BitVec 3) (q r : Reg) (s : State), s.status = .running →
    regOf reg = some q → regOf rm = some r → (s.reg q).toInt = min64 →
    ∃ t, exec (.sub pre reg rm) s = .next t ∧
      (t.status = .executeFault s.pc .arithmeticOverflow ↔ 0 ≤ (s.reg r).toInt) ∧
      (0 ≤ (s.reg r).toInt → FaultTaken s t (.executeFault s.pc .arithmeticOverflow)) ∧
      ((s.reg r).toInt < 0 →
        t.status = .running ∧ (t.reg r).toInt = (s.reg r).toInt + 2 ^ 63 ∧ Completed s t r (t.reg r) (lengthWith pre 2))

/-- Every register-to-register move has two encodings of equal length and the same effect (R142, an inference of the spec). -/
def Obligations.MoveHasTwoEncodings : Prop :=
  ∀ (pre : Option Byte) (a b : BitVec 3) (s : State),
    exec (.movMR pre a b) s = exec (.movRM pre b a) s ∧
      (encode (.movMR pre a b)).length = (encode (.movRM pre b a)).length

/-! ## Records -/

/-- The record is all EXECUTE needs (R30, R110, R112): executing the record of an instruction is executing the instruction, though
the record keeps no prefix byte. -/
def Obligations.RecordExecutesAsItsInstruction : Prop :=
  ∀ (i : Instr) (r : Record) (s : State), i.record = some r → executeRecord r s = exec i s

/-- A record with an unmapped opcode takes the execute fault `UnknownOpcode` (R122), and no step ever takes that fault (R122,
an inference of the spec). -/
def Obligations.UnmappedRecordFaultsAndNoStepDoes : Prop :=
  (∀ (r : Record) (s : State), s.status = .running → opcodeOf r.opcode = none →
    ∃ t, executeRecord r s = .next t ∧ FaultTaken s t (.executeFault s.pc .unknownOpcode)) ∧
    ∀ (s t : State) (pos : Nat), step s = .next t → t.status ≠ .executeFault pos .unknownOpcode

/-- Records that no Decoder produces get no result (R126, by D19; the shapes of R31, an inference of the spec; log 9): every record
with a mapped opcode that is the record of no well-formed instruction; among them the spec's examples, opcode 81 without an
imm32, 89 without an operand byte, B8 with both immediates or with neither, an operand byte that is not direct. -/
def Obligations.MalformedRecordsAreRefused : Prop :=
  ∀ (r : Record) (s : State), s.status = .running →
    (opcodeOf r.opcode ≠ none → (∀ i : Instr, i.wf = true → i.record ≠ some r) →
        executeRecord r s = .refused .malformedRecord) ∧
      (r.opcode = 0x81 → r.imm32 = none → executeRecord r s = .refused .malformedRecord) ∧
      (r.opcode = 0x89 → r.m = none → executeRecord r s = .refused .malformedRecord) ∧
      (r.opcode = 0xb8 → r.imm32.isSome = r.imm64.isSome → executeRecord r s = .refused .malformedRecord) ∧
      (∀ m, r.opcode = 0x89 ∨ r.opcode = 0x81 → r.m = some m → modField m ≠ modDirect →
        executeRecord r s = .refused .malformedRecord)

/-! ## Registers, reset, the host -/

/-- The four registers are independent, none is hard-wired (R20, R23): what is written is read back, and the others are as before;
and the four names are four slots. -/
def Obligations.RegistersAreIndependent : Prop :=
  ∀ (x : Regs) (r : Reg) (v : Word),
    (x.set r v).get r = v ∧ (∀ q, q ≠ r → (x.set r v).get q = x.get q) ∧
      x = { a := x.get .A, b := x.get .B, c := x.get .C, d := x.get .D }

/-- What reset leaves (R34, R250): registers and `pc` 0; `cursor` 0 by D24, `STATUS` Running by D15 (log 7), the buffer the host
supplies, which is the empty one for `State.reset` (the model's choice, log 5). -/
def Obligations.ResetLeavesTheStatedValues : Prop :=
  (∀ buf : Memory, (∀ r, (resetOnto buf).reg r = 0) ∧ (resetOnto buf).pc = 0 ∧ (resetOnto buf).cursor = 0 ∧
    (resetOnto buf).status = .running ∧ (resetOnto buf).buf = buf) ∧
    State.reset = resetOnto (Memory.ofBytes [])

/-- A buffer made of bytes has exactly those bytes at offsets 0 to `N - 1`, and no offset outside exists (R40, R43, R210). -/
def Obligations.BufferHoldsTheLoadedBytes : Prop :=
  ∀ (bs : List Byte) (a : Nat), (Memory.ofBytes bs).size = bs.length ∧ (Memory.ofBytes bs).read a = bs[a]?

/-- RESULT (R205): the signed value of A where it fits 32 bits, the tag where it does not, never a truncation; in range exactly
where bits 63 to 31 are all equal; a function of A alone, in every state (D25, log 8). -/
def Obligations.ResultIsAOrOutOfRange : Prop :=
  (∀ (s : State) (v : BitVec 32), result s = .value v → v.toInt = (s.reg .A).toInt) ∧
    (∀ s : State, result s = .outOfRange ↔ ((s.reg .A).toInt < min32 ∨ max32 < (s.reg .A).toInt)) ∧
    (∀ s : State, (∃ v, result s = .value v) ↔
      ∀ k, 31 ≤ k → k < 64 → (s.reg .A).getLsbD k = (s.reg .A).getLsbD 63) ∧
    ∀ s t : State, s.reg .A = t.reg .A → result s = result t

/-- The hex text of any buffer loads back to it, without spaces and with one space between pairs (R210, R213). -/
def Obligations.HexTextLoadsBack : Prop :=
  ∀ bs : List Byte, loadHex (canonicalHex bs) = some bs ∧ loadHex (spacedHex bs) = some bs

/-- LOAD_HEX accepts exactly the texts whose characters are spaces and hex digits, with an even number of digits (R210, R211; D16,
log 7), two digits a byte. -/
def Obligations.HexTextIsRejectedExactlyWhenMalformed : Prop :=
  ∀ text : List Char,
    ((∃ bs, loadHex text = some bs) ↔
      ((∀ ch ∈ text, isSpace ch = true ∨ (hexDigit ch).isSome = true) ∧
        (text.filter fun ch => !isSpace ch).length % 2 = 0)) ∧
      ∀ bs, loadHex text = some bs → 2 * bs.length = (text.filter fun ch => !isSpace ch).length

/-- LOAD_HEX does not look at case or at spaces (R210, R211; spaces inside a pair by D16, log 7). -/
def Obligations.HexTextIgnoresCaseAndSpaces : Prop :=
  ∀ text : List Char,
    loadHex (text.map Char.toLower) = loadHex text ∧ loadHex (text.filter fun ch => !isSpace ch) = loadHex text

/-! ## The Decoder on its own -/

/-- DECODE_NEXT answers a record or a decode fault (R90, R97, R98). In `Running` it is one of the two. A record is that of a
well-formed instruction whose bytes stand at the cursor, all inside the buffer; its length is how many they are, and the
cursor moves past them. A fault is a decode fault (offset by D6, cursor by D7, log 7); and a prefix followed by a byte that is
no opcode is the fault `UnknownOpcode` at that byte (R93, R99; one prefix by D13, log 7; log 2), from DECODE_NEXT itself. -/
def Obligations.DecodeNextAnswersARecordOrAFault : Prop :=
  ∀ s : State, s.status = .running →
    ((∃ r i t, decodeNext s = .decoded r i t) ∨ ∃ t, decodeNext s = .faulted t) ∧
      (∀ r i t, decodeNext s = .decoded r i t →
        i.wf = true ∧ i.record = some r ∧ r.length = (encode i).length ∧
          (∀ k, k < r.length → s.readByte (s.cursor + k) = (encode i)[k]?) ∧
          t.cursor = s.cursor + r.length ∧ t.cursor ≤ s.buf.size ∧ t.status = .running) ∧
      (∀ t, decodeNext s = .faulted t →
        ∃ pos reason, FaultTaken s t (.decodeFault pos reason) ∧ s.cursor ≤ pos ∧
          (s.cursor ≤ s.buf.size → pos ≤ s.buf.size)) ∧
      ∀ p b, s.readByte s.cursor = some p → isPrefix p = true → s.readByte (s.cursor + 1) = some b → opcodeOf b = none →
        ∃ t, decodeNext s = .faulted t ∧ FaultTaken s t (.decodeFault (s.cursor + 1) .unknownOpcode)

/-- The table of worked examples of DECODE_NEXT (R104, which the spec infers; opcode bytes by D2, positions by D3, offsets by D6,
one prefix by D13, log 7): on each buffer, from the cursor 0, the record with the cursor after it, or the fault with the
cursor in place. -/
def Obligations.DecoderAnswersTheSpecsExamples : Prop :=
  (∀ p ∈ ([([0xb8, 0x2a, 0, 0, 0], ⟨0xb8, none, some 0x2a, none, 5⟩),
      ([0x48, 0xb8, 0x88, 0x77, 0x66, 0x55, 0x44, 0x33, 0x22, 0x11], ⟨0xb8, none, none, some 0x1122334455667788, 10⟩),
      ([0x48, 0x81, 0xc0, 2, 0, 0, 0], ⟨0x81, some 0xc0, some 2, none, 7⟩),
      ([0x81, 0xc0, 2, 0, 0, 0], ⟨0x81, some 0xc0, some 2, none, 6⟩),
      ([0x48, 0x89, 0xc3], ⟨0x89, some 0xc3, none, none, 3⟩),
      ([0x89, 0xc3], ⟨0x89, some 0xc3, none, none, 2⟩),
      ([0x48, 0x05, 0xff, 0xff, 0xff, 0xff], ⟨0x05, none, some 0xffffffff, none, 6⟩),
      ([0x81, 0xf8, 0, 0, 0, 0], ⟨0x81, some 0xf8, some 0, none, 6⟩),
      ([0x01, 0xe0], ⟨0x01, some 0xe0, none, none, 2⟩)] : List (List Byte × Record)),
    ∃ i t, decodeNext (resetOnto (Memory.ofBytes p.1)) = .decoded p.2 i t ∧ t.cursor = p.2.length) ∧
    ∀ p ∈ ([([], 0, .truncatedInput), ([0x48], 1, .truncatedInput), ([0x89], 1, .truncatedInput),
        ([0x90], 0, .unknownOpcode), ([0x48, 0x90], 1, .unknownOpcode),
        ([0x48, 0x48, 0xb8, 0, 0, 0, 0, 0, 0, 0, 0], 1, .unknownOpcode),
        ([0x89, 0x03], 1, .unsupportedAddressingMode), ([0x89, 0x43], 1, .unsupportedAddressingMode),
        ([0x89, 0x83], 1, .unsupportedAddressingMode), ([0x81, 0x00], 1, .unsupportedAddressingMode),
        ([0xb8, 0x2a, 0, 0], 1, .truncatedImmediate), ([0xb8], 1, .truncatedImmediate),
        ([0x48, 0xb8, 0x2a, 0, 0, 0], 2, .truncatedImmediate),
        ([0x81, 0xc0, 2, 0], 2, .truncatedImmediate)] : List (List Byte × Nat × DecodeReason)),
      ∃ t, decodeNext (resetOnto (Memory.ofBytes p.1)) = .faulted t ∧
        FaultTaken (resetOnto (Memory.ofBytes p.1)) t (.decodeFault p.2.1 p.2.2)
end

