-- ==== Sys2Proof/Laws/Decode.lean ====
section
/-! SUPPORT. The small lemmas of the decoder: the opcode table, the operand byte's fields, immediates in bytes. -/

namespace Sys2Proof

/-- The byte of an opcode reads back as that opcode. -/
@[simp] theorem opcodeOf_byte (o : Opcode) : opcodeOf o.byte = some o := by
  cases o with
  | oi r => cases r <;> rfl
  | om k => cases k <;> rfl
  | omi k => cases k <;> rfl
  | ai k => cases k <;> rfl

/-- A byte that reads as an opcode is that opcode's byte. -/
theorem byte_of_opcodeOf {b : Byte} {o : Opcode} (h : opcodeOf b = some o) : b = o.byte := by
  obtain ⟨row, hf, hr⟩ := Option.map_eq_some_iff.1 h
  have hb : row.1 = b := by simpa using List.find?_some hf
  have all : ∀ row ∈ opcodeTable, row.2.byte = row.1 := by decide
  rw [← hb, ← hr]
  exact (all row (List.mem_of_find?_eq_some hf)).symm

/-- Every instruction but `w` has a record. -/
theorem record_eq_none {i : Instr} : i.record = none ↔ ∃ p nxt, i = .w p nxt := by
  cases i <;> simp [Instr.record]

/-- The length of a record is that of its instruction (R30). -/
theorem record_length {i : Instr} {r : Record} (h : i.record = some r) : r.length = i.length := by
  cases i <;> simp only [Instr.record, Option.some.injEq, reduceCtorEq] at h <;> rw [← h] <;> rfl

/-- `PREFIX_SET` is disjoint from the opcode map (R63 item 4). -/
@[simp] theorem isPrefix_opcode_byte (o : Opcode) : isPrefix o.byte = false := by
  cases o with
  | oi r => cases r <;> rfl
  | om k => cases k <;> rfl
  | omi k => cases k <;> rfl
  | ai k => cases k <;> rfl

/-- 0x48 is a widening prefix (R63). -/
@[simp] theorem isPrefix_48 : isPrefix 0x48#8 = true := rfl

@[simp] theorem modField_operandByte (reg rm : BitVec 3) : modField (operandByte reg rm) = modDirect := by
  revert reg rm; decide +kernel

@[simp] theorem regField_operandByte (reg rm : BitVec 3) : regField (operandByte reg rm) = reg := by
  revert reg rm; decide +kernel

@[simp] theorem rmField_operandByte (reg rm : BitVec 3) : rmField (operandByte reg rm) = rm := by
  revert reg rm; decide +kernel

/-- An operand byte with the direct-register pattern is made of its two fields. -/
theorem operandByte_fields (m : Byte) (h : modField m = modDirect) : operandByte (regField m) (rmField m) = m := by
  revert m; decide +kernel

@[simp] theorem bytesOfImm32_length (v : BitVec 32) : (bytesOfImm32 v).length = 4 := rfl

@[simp] theorem bytesOfImm64_length (v : BitVec 64) : (bytesOfImm64 v).length = 8 := rfl

/-- Putting neighbouring fields of a word together gives the field they make up. -/
theorem append_fields {w : Nat} (v : BitVec w) (a m n : Nat) :
    v.extractLsb' (a + n) m ++ v.extractLsb' a n = v.extractLsb' a (m + n) :=
  BitVec.extractLsb'_append_extractLsb'_eq_extractLsb' rfl

/-- The bytes of an imm32 read back as it, whatever follows. -/
@[simp] theorem readImm32_bytes (v : BitVec 32) (rest : List Byte) :
    readImm32 (bytesOfImm32 v ++ rest) = some v := by
  simp only [bytesOfImm32, List.cons_append, List.nil_append, readImm32]
  rw [append_fields v 16 8 8, append_fields v 8 16 8, append_fields v 0 24 8, BitVec.extractLsb'_eq_self]

/-- The bytes of an imm64 read back as it, whatever follows. -/
@[simp] theorem readImm64_bytes (v : BitVec 64) (rest : List Byte) :
    readImm64 (bytesOfImm64 v ++ rest) = some v := by
  simp only [bytesOfImm64, List.cons_append, List.nil_append, readImm64]
  rw [append_fields v 48 8 8, append_fields v 40 16 8, append_fields v 32 24 8, append_fields v 24 32 8,
    append_fields v 16 40 8, append_fields v 8 48 8, append_fields v 0 56 8, BitVec.extractLsb'_eq_self]

/-- The low byte of a word that ends in a byte. -/
theorem byte_zero_append {n : Nat} (x : BitVec n) (b : Byte) : (x ++ b).extractLsb' 0 8 = b := by
  rw [BitVec.extractLsb'_append_eq_of_add_le (by omega), BitVec.extractLsb'_eq_self]

/-- The other bytes of a word that ends in a byte. -/
theorem byte_succ_append {n : Nat} (x : BitVec n) (b : Byte) (k : Nat) :
    (x ++ b).extractLsb' (k + 8) 8 = x.extractLsb' k 8 := by
  rw [BitVec.extractLsb'_append_eq_of_le (by omega), Nat.add_sub_cancel]

/-- Four bytes put together are the bytes of the imm32 they make. -/
theorem bytesOfImm32_append (b0 b1 b2 b3 : Byte) : bytesOfImm32 (b3 ++ b2 ++ b1 ++ b0) = [b0, b1, b2, b3] := by
  unfold bytesOfImm32
  rw [byte_zero_append, byte_succ_append _ _ 0, byte_succ_append _ _ 8, byte_succ_append _ _ 16, byte_zero_append,
    byte_succ_append _ _ 0, byte_succ_append _ _ 8, byte_zero_append, byte_succ_append _ _ 0, BitVec.extractLsb'_eq_self]

/-- Eight bytes put together are the bytes of the imm64 they make. -/
theorem bytesOfImm64_append (b0 b1 b2 b3 b4 b5 b6 b7 : Byte) :
    bytesOfImm64 (b7 ++ b6 ++ b5 ++ b4 ++ b3 ++ b2 ++ b1 ++ b0) = [b0, b1, b2, b3, b4, b5, b6, b7] := by
  unfold bytesOfImm64
  simp only [byte_zero_append, byte_succ_append _ _ 0, byte_succ_append _ _ 8, byte_succ_append _ _ 16,
    byte_succ_append _ _ 24, byte_succ_append _ _ 32, byte_succ_append _ _ 40, byte_succ_append _ _ 48,
    BitVec.extractLsb'_eq_self]

/-- What reads as an imm32 begins with the imm32's bytes. -/
theorem readImm32_some {bs : List Byte} {v : BitVec 32} (h : readImm32 bs = some v) :
    ∃ rest, bs = bytesOfImm32 v ++ rest := by
  match bs, h with
  | b0 :: b1 :: b2 :: b3 :: rest, h =>
    simp only [readImm32, Option.some.injEq] at h
    exact ⟨rest, by rw [← h, bytesOfImm32_append]; rfl⟩

/-- What reads as an imm64 begins with the imm64's bytes. -/
theorem readImm64_some {bs : List Byte} {v : BitVec 64} (h : readImm64 bs = some v) :
    ∃ rest, bs = bytesOfImm64 v ++ rest := by
  match bs, h with
  | b0 :: b1 :: b2 :: b3 :: b4 :: b5 :: b6 :: b7 :: rest, h =>
    simp only [readImm64, Option.some.injEq] at h
    exact ⟨rest, by rw [← h, bytesOfImm64_append]; rfl⟩

/-- An imm32 is read exactly where four bytes are left (R43, R95). -/
theorem readImm32_eq_none {bs : List Byte} : readImm32 bs = none ↔ bs.length < 4 := by
  match bs with
  | [] | [_] | [_, _] | [_, _, _] => simp [readImm32]
  | _ :: _ :: _ :: _ :: _ => simp [readImm32]

/-- An imm64 is read exactly where eight bytes are left (R43, R95). -/
theorem readImm64_eq_none {bs : List Byte} : readImm64 bs = none ↔ bs.length < 8 := by
  match bs with
  | [] | [_] | [_, _] | [_, _, _] | [_, _, _, _] | [_, _, _, _, _] => simp [readImm64]
  | [_, _, _, _, _, _] | [_, _, _, _, _, _, _] => simp [readImm64]
  | _ :: _ :: _ :: _ :: _ :: _ :: _ :: _ :: _ => simp [readImm64]

/-- Step 2 on an opcode byte goes on by the opcode's format. -/
theorem decodeOpcode_byte (pre : Option Byte) (o : Opcode) (p : Nat) (bs : List Byte) :
    decodeOpcode pre p (o.byte :: bs) =
      match o with
      | .oi r => decodeOI pre r (p + 1) bs
      | .om k => decodeOM pre k (p + 1) bs
      | .omi k => decodeOMI pre k (p + 1) bs
      | .ai k => decodeAI pre k (p + 1) bs := by
  simp only [decodeOpcode, opcodeOf_byte]
  cases o <;> rfl

/-- Step 1 before an opcode byte: the prefix, if there is one, is consumed (R92). -/
theorem decode_before_opcode (pre : Option Byte) (o : Opcode) (bs : List Byte) (h : prefixOk pre = true) :
    decode (pre.toList ++ o.byte :: bs) = decodeOpcode pre pre.toList.length (o.byte :: bs) := by
  cases pre with
  | none => simp [decode]
  | some b =>
    have : isPrefix b = true := by simpa [prefixOk] using h
    simp [decode, this]

/-- The optional prefix read from a length is the one that has it. -/
theorem prefixOfLength_some {base len : Nat} {pre : Option Byte} (h : prefixOfLength base len = some pre) :
    lengthWith pre base = len ∧ prefixOk pre = true := by
  unfold prefixOfLength at h
  split at h
  · next hl => cases h; exact ⟨hl.symm, rfl⟩
  · split at h
    · next hl => cases h; exact ⟨hl.symm, rfl⟩
    · cases h

/-- The record of what a format `OM` opcode and its direct operand byte are read as. -/
theorem omInstr_record (k : OMOp) {pre : Option Byte} {m : Byte} (hp : prefixOk pre = true) (hm : modField m = modDirect) :
    (omInstr k pre m).wf = true ∧
      (omInstr k pre m).record = some ⟨(Opcode.om k).byte, some m, none, none, lengthWith pre 2⟩ := by
  cases k <;> exact ⟨hp, by simp [omInstr, Instr.record, recordOM, operandByte_fields m hm, Instr.length]⟩

/-- The record of what a format `OMI` opcode, its direct operand byte and its imm32 are read as. -/
theorem omiInstr_record (k : OMIOp) {pre : Option Byte} {m : Byte} (v : BitVec 32) (hp : prefixOk pre = true)
    (hm : modField m = modDirect) :
    (omiInstr k pre m v).wf = true ∧
      (omiInstr k pre m v).record = some ⟨(Opcode.omi k).byte, some m, some v, none, lengthWith pre 6⟩ := by
  have all : ∀ c : BitVec 3, c = 0 ∨ c = 1 ∨ c = 2 ∨ c = 3 ∨ c = 4 ∨ c = 5 ∨ c = 6 ∨ c = 7 := by decide
  have hf := operandByte_fields m hm
  rcases all (regField m) with h | h | h | h | h | h | h | h <;> rw [h] at hf <;> cases k <;>
    simp [omiInstr, group1Instr, storeInstr, h, Instr.wf, hp, Instr.record, recordOMI, Instr.length] <;> exact hf

/-- What EXECUTE reads as an instruction is the record of that instruction, a well-formed one (R31, R126). -/
theorem reading_instr {r : Record} {i : Instr} (h : r.reading = .instr i) : i.wf = true ∧ i.record = some r := by
  obtain ⟨op, m, imm32, imm64, len⟩ := r
  unfold Record.reading at h
  cases ho : opcodeOf op with
  | none => simp [ho] at h
  | some o =>
    obtain rfl := byte_of_opcodeOf ho
    simp only [opcodeOf_byte] at h
    cases o with
    | oi d =>
      dsimp only at h
      split at h
      · split at h
        · next hl => subst hl; cases h; cases d <;> exact ⟨rfl, rfl⟩
        · cases h
      · split at h
        · next hl => subst hl; cases h; cases d <;> exact ⟨rfl, rfl⟩
        · cases h
      · cases h
    | om k =>
      dsimp only at h
      split at h
      · next hl =>
        split at h
        · next hm => obtain ⟨rfl, hp⟩ := prefixOfLength_some hl; cases h; exact omInstr_record k hp hm
        · cases h
      · cases h
    | omi k =>
      dsimp only at h
      split at h
      · next hl =>
        split at h
        · next hm => obtain ⟨rfl, hp⟩ := prefixOfLength_some hl; cases h; exact omiInstr_record k _ hp hm
        · cases h
      · cases h
    | ai k =>
      dsimp only at h
      split at h
      · next hl => obtain ⟨rfl, hp⟩ := prefixOfLength_some hl; cases h; cases k <;> exact ⟨hp, rfl⟩
      · cases h

/-- An opcode that has an operand byte (R71). -/
def Opcode.HasOperand (o : Opcode) : Prop := (∃ k, o = .om k) ∨ ∃ k, o = .omi k

/-- Everything that can go wrong from the opcode on, with its offset: no byte; no opcode, without a prefix; no operand byte; an
operand byte that is not direct; too few bytes for the immediate. -/
theorem decodeOpcode_fault {pre : Option Byte} {p off : Nat} {cs : List Byte} {reason : DecodeReason}
    (h : decodeOpcode pre p cs = .fault off reason) :
    (cs = [] ∧ off = p ∧ reason = .truncatedInput) ∨
      (∃ b rest, cs = b :: rest ∧ opcodeOf b = none ∧ pre = none ∧ off = p ∧ reason = .unknownOpcode) ∨
      ∃ o rest, cs = Opcode.byte o :: rest ∧
        ((o.HasOperand ∧ rest = [] ∧ off = p + 1 ∧ reason = .truncatedInput) ∨
          (o.HasOperand ∧ (∃ m tail, rest = m :: tail ∧ modField m ≠ modDirect) ∧ off = p + 1 ∧
            reason = .unsupportedAddressingMode) ∨
          ((∃ r, o = .oi r) ∧ rest.length < (if pre.isSome then 8 else 4) ∧ off = p + 1 ∧ reason = .truncatedImmediate) ∨
          ((∃ k, o = .ai k) ∧ rest.length < 4 ∧ off = p + 1 ∧ reason = .truncatedImmediate) ∨
          ((∃ k, o = .omi k) ∧ (∃ m tail, rest = m :: tail ∧ modField m = modDirect ∧ tail.length < 4) ∧ off = p + 2 ∧
            reason = .truncatedImmediate)) := by
  cases cs with
  | nil => cases h; exact .inl ⟨rfl, rfl, rfl⟩
  | cons b rest =>
    right
    cases ho : opcodeOf b with
    | none =>
      simp only [decodeOpcode, ho] at h
      cases pre with
      | none => cases h; exact .inl ⟨b, rest, rfl, ho, rfl, rfl, rfl⟩
      | some _ => cases h
    | some o =>
      right
      obtain rfl := byte_of_opcodeOf ho
      refine ⟨o, rest, rfl, ?_⟩
      rw [decodeOpcode_byte] at h
      cases o with
      | oi r =>
        refine .inr (.inr (.inl ⟨⟨r, rfl⟩, ?_⟩))
        cases pre with
        | none =>
          simp only [decodeOI] at h
          split at h
          · cases h
          · next hn => cases h; exact ⟨readImm32_eq_none.1 hn, rfl, rfl⟩
        | some _ =>
          simp only [decodeOI] at h
          split at h
          · cases h
          · next hn => cases h; exact ⟨readImm64_eq_none.1 hn, rfl, rfl⟩
      | om k =>
        cases rest with
        | nil => cases h; exact .inl ⟨.inl ⟨k, rfl⟩, rfl, rfl, rfl⟩
        | cons m tail =>
          simp only [decodeOM] at h
          split at h
          · cases h
          · next hm => cases h; exact .inr (.inl ⟨.inl ⟨k, rfl⟩, ⟨m, tail, rfl, hm⟩, rfl, rfl⟩)
      | omi k =>
        cases rest with
        | nil => cases h; exact .inl ⟨.inr ⟨k, rfl⟩, rfl, rfl, rfl⟩
        | cons m tail =>
          simp only [decodeOMI] at h
          split at h
          · next hm =>
            split at h
            · cases h
            · next hn =>
              cases h
              exact .inr (.inr (.inr (.inr ⟨⟨k, rfl⟩, ⟨m, tail, rfl, hm, readImm32_eq_none.1 hn⟩, rfl, rfl⟩)))
          · next hm => cases h; exact .inr (.inl ⟨.inr ⟨k, rfl⟩, ⟨m, tail, rfl, hm⟩, rfl, rfl⟩)
      | ai k =>
        simp only [decodeAI] at h
        split at h
        · cases h
        · next hn => cases h; exact .inr (.inr (.inr (.inl ⟨⟨k, rfl⟩, readImm32_eq_none.1 hn, rfl, rfl⟩)))

/-- A decode fault is of the empty list, or is found from the opcode on, at offset 1 after a prefix and else at offset 0. -/
theorem decode_fault {bs : List Byte} {off : Nat} {reason : DecodeReason} (h : decode bs = .fault off reason) :
    (bs = [] ∧ off = 0 ∧ reason = .truncatedInput) ∨
      (∃ b cs, bs = b :: cs ∧ isPrefix b = true ∧ decodeOpcode (some b) 1 cs = .fault off reason) ∨
      ∃ b cs, bs = b :: cs ∧ isPrefix b = false ∧ decodeOpcode none 0 (b :: cs) = .fault off reason := by
  cases bs with
  | nil => cases h; exact .inl ⟨rfl, rfl, rfl⟩
  | cons b cs =>
    simp only [decode] at h
    split at h
    · next hb => exact .inr (.inl ⟨b, cs, rfl, hb, h⟩)
    · next hb => exact .inr (.inr ⟨b, cs, rfl, by simpa using hb, h⟩)

end Sys2Proof
end

