-- ==== Sys2Proof/Laws/Memory.lean ====
section
/-! SUPPORT. The laws of the instruction buffer: reading after placing, and that every operation keeps the canonical form. -/

namespace Sys2Proof.Machine

/-- An offset that no entry has reads as the unlisted byte. -/
theorem cellsRead_unlisted (cs : List Host.Cell) (a : Nat) (h : ∀ c ∈ cs, c.1 ≠ a) :
    cellsRead cs a = Config.unlistedByte := by
  induction cs with
  | nil => rfl
  | cons c cs ih =>
    have hc : c.1 ≠ a := h c (by simp)
    simp only [cellsRead, hc, if_false]
    exact ih fun x hx => h x (by simp [hx])

/-- The entries after one in canonical form have other offsets. -/
theorem cells_tail_ne {c : Host.Cell} {cs : List Host.Cell} (h : (c :: cs).Pairwise fun x y => x.1 < y.1) :
    ∀ x ∈ cs, x.1 ≠ c.1 := by
  intro x hx
  have := List.rel_of_pairwise_cons h hx
  omega

/-- Reading after an entry was put in. -/
theorem cellsRead_insert (cs : List Host.Cell) (a k : Nat) (b : Byte)
    (h : cs.Pairwise fun x y => x.1 < y.1) :
    cellsRead (cellsInsert a b cs) k = if k = a then b else cellsRead cs k := by
  induction cs with
  | nil =>
    by_cases hk : k = a
    · simp [cellsInsert, cellsRead, hk]
    · simp [cellsInsert, cellsRead, hk, Ne.symm hk]
  | cons c cs ih =>
    have ih := ih h.of_cons
    simp only [cellsInsert]
    split
    · by_cases hk : k = a
      · simp [cellsRead, hk]
      · simp [cellsRead, hk, Ne.symm hk]
    · split
      · next hca =>
        by_cases hk : k = a
        · simp [cellsRead, hk]
        · simp [cellsRead, hk, Ne.symm hk, hca]
      · next hca =>
        by_cases hk : k = a
        · subst hk; simp [cellsRead, hca, ih]
        · simp [cellsRead, ih, hk]

/-- Reading after an entry was taken out. -/
theorem cellsRead_erase (cs : List Host.Cell) (a k : Nat) (h : cs.Pairwise fun x y => x.1 < y.1) :
    cellsRead (cellsErase a cs) k = if k = a then Config.unlistedByte else cellsRead cs k := by
  induction cs with
  | nil => simp [cellsErase, cellsRead]
  | cons c cs ih =>
    have ih := ih h.of_cons
    simp only [cellsErase]
    split
    · next hca =>
      by_cases hk : k = a
      · subst hk; subst hca
        simpa using cellsRead_unlisted cs c.1 (cells_tail_ne h)
      · simp [cellsRead, hk, hca, Ne.symm hk]
    · next hca =>
      by_cases hk : k = a
      · subst hk; simp [cellsRead, hca, ih]
      · simp [cellsRead, ih, hk]

/-- Every entry after an insertion is the new one or an old one. -/
theorem mem_cellsInsert {cs : List Host.Cell} {a : Nat} {b : Byte} {x : Host.Cell}
    (h : x ∈ cellsInsert a b cs) : x = (a, b) ∨ x ∈ cs := by
  induction cs with
  | nil => simpa [cellsInsert] using h
  | cons c cs ih =>
    simp only [cellsInsert] at h
    split at h
    · simpa using h
    · split at h
      · rcases List.mem_cons.1 h with h | h
        · exact .inl h
        · exact .inr (by simp [h])
      · rcases List.mem_cons.1 h with h | h
        · exact .inr (by simp [h])
        · rcases ih h with h | h
          · exact .inl h
          · exact .inr (by simp [h])

/-- Every entry after a removal is an old one. -/
theorem mem_cellsErase {cs : List Host.Cell} {a : Nat} {x : Host.Cell} (h : x ∈ cellsErase a cs) : x ∈ cs := by
  induction cs with
  | nil => exact h
  | cons c cs ih =>
    simp only [cellsErase] at h
    split at h
    · simp [h]
    · rcases List.mem_cons.1 h with h | h
      · simp [h]
      · simp [ih h]

/-- An insertion keeps the offsets rising. -/
theorem cellsInsert_rising (cs : List Host.Cell) (a : Nat) (b : Byte) (h : cs.Pairwise fun x y => x.1 < y.1) :
    (cellsInsert a b cs).Pairwise fun x y => x.1 < y.1 := by
  induction cs with
  | nil => simp [cellsInsert]
  | cons c cs ih =>
    have hc := (List.pairwise_cons.1 h).1
    have ih := ih h.of_cons
    simp only [cellsInsert]
    split
    · next hac =>
      refine List.pairwise_cons.2 ⟨fun x hx => ?_, h⟩
      rcases List.mem_cons.1 hx with hx | hx
      · subst hx; exact hac
      · exact Nat.lt_trans hac (hc x hx)
    · split
      · next hca =>
        refine List.pairwise_cons.2 ⟨fun x hx => ?_, h.of_cons⟩
        have := hc x hx
        simp only at this ⊢
        omega
      · next hn hca =>
        refine List.pairwise_cons.2 ⟨fun x hx => ?_, ih⟩
        rcases mem_cellsInsert hx with hx | hx
        · subst hx; simp only; omega
        · exact hc x hx

/-- A removal keeps the offsets rising. -/
theorem cellsErase_rising (cs : List Host.Cell) (a : Nat) (h : cs.Pairwise fun x y => x.1 < y.1) :
    (cellsErase a cs).Pairwise fun x y => x.1 < y.1 := by
  induction cs with
  | nil => exact h
  | cons c cs ih =>
    simp only [cellsErase]
    split
    · exact h.of_cons
    · exact List.pairwise_cons.2 ⟨fun x hx => (List.pairwise_cons.1 h).1 x (mem_cellsErase hx), ih h.of_cons⟩

@[simp] theorem place_size (m : Memory) (a : Nat) (b : Byte) : (m.place a b).size = m.size := by
  unfold Memory.place; split <;> rfl

@[simp] theorem grow_size (m : Memory) (n : Nat) : (m.grow n).size = max m.size n := rfl

@[simp] theorem placeAll_size (m : Memory) (a : Nat) (bs : List Byte) : (m.placeAll a bs).size = m.size := by
  induction bs generalizing m a with
  | nil => rfl
  | cons b bs ih => simp [Memory.placeAll, ih]

theorem empty_wf : Memory.empty.wf := by
  refine ⟨List.Pairwise.nil, fun c hc => ?_⟩
  cases hc

/-- Placing a byte keeps the canonical form. -/
theorem place_wf (m : Memory) (a : Nat) (b : Byte) (h : m.wf) : (m.place a b).wf := by
  obtain ⟨hr, hm⟩ := h
  unfold Memory.place
  split
  · next ha =>
    by_cases hb : b = Config.unlistedByte
    · simp only [hb, if_true]
      exact ⟨cellsErase_rising _ _ hr, fun c hc => hm c (mem_cellsErase hc)⟩
    · simp only [hb, if_false]
      refine ⟨cellsInsert_rising _ _ _ hr, fun c hc => ?_⟩
      rcases mem_cellsInsert hc with hc | hc
      · subst hc; exact ⟨ha, hb⟩
      · exact hm c hc
  · exact ⟨hr, hm⟩

/-- Lengthening a buffer keeps the canonical form. -/
theorem grow_wf (m : Memory) (n : Nat) (h : m.wf) : (m.grow n).wf :=
  ⟨h.1, fun c hc => ⟨Nat.lt_of_lt_of_le (h.2 c hc).1 (Nat.le_max_left _ _), (h.2 c hc).2⟩⟩

/-- Placing bytes keeps the canonical form. -/
theorem placeAll_wf (m : Memory) (a : Nat) (bs : List Byte) (h : m.wf) : (m.placeAll a bs).wf := by
  induction bs generalizing m a with
  | nil => exact h
  | cons b bs ih => exact ih _ _ (place_wf m a b h)

/-- A buffer made of bytes has the canonical form. -/
theorem ofBytes_wf (bs : List Byte) : (Memory.ofBytes bs).wf :=
  placeAll_wf _ _ _ (grow_wf _ _ empty_wf)

@[simp] theorem ofBytes_size (bs : List Byte) : (Memory.ofBytes bs).size = bs.length := by
  simp [Memory.ofBytes, Memory.empty]

/-- The buffer of `State.reset` has the canonical form. -/
theorem reset_buf_wf : State.reset.buf.wf := empty_wf

/-- A byte just placed reads as placed; every other offset reads as before. -/
theorem place_read (m : Memory) (a k : Nat) (b : Byte) (h : m.wf) (ha : a < m.size) :
    (m.place a b).read k = if k = a then some b else m.read k := by
  have key : cellsRead (m.place a b).cells k = if k = a then b else cellsRead m.cells k := by
    simp only [Memory.place, ha, if_true]
    by_cases hb : b = Config.unlistedByte
    · simp only [hb, if_true]; exact cellsRead_erase _ _ _ h.1
    · simp only [hb, if_false]; exact cellsRead_insert _ _ _ _ h.1
  unfold Memory.read
  rw [place_size, key]
  by_cases hk : k = a
  · subst hk; simp [ha]
  · simp [hk]

/-- Lengthening a buffer leaves every byte it had. -/
theorem grow_read (m : Memory) (n k : Nat) (hk : k < m.size) : (m.grow n).read k = m.read k := by
  have : k < max m.size n := Nat.lt_of_lt_of_le hk (Nat.le_max_left _ _)
  simp [Memory.read, Memory.grow, hk, this]

/-- The window holds the buffer's bytes from the cursor on. -/
theorem window_getElem? (s : State) (k : Nat) (hk : k < maxLength) :
    (window s)[k]? = s.readByte (s.cursor + k) := by
  simp only [window, State.readByte, Memory.read, List.getElem?_map]
  by_cases h : s.cursor + k < s.buf.size
  · have : k < min maxLength (s.buf.size - s.cursor) := by omega
    simp [h, List.getElem?_range this]
  · have : ¬ k < min maxLength (s.buf.size - s.cursor) := by omega
    simp [h, this]

@[simp] theorem window_length (s : State) : (window s).length = min maxLength (s.buf.size - s.cursor) := by
  simp [window]

/-- A byte seen in the window stands in the buffer. -/
theorem readByte_of_window {s : State} {k : Nat} {b : Byte} (h : (window s)[k]? = some b) :
    s.readByte (s.cursor + k) = some b := by
  have hk : k < (window s).length := (List.getElem?_eq_some_iff.1 h).1
  rw [← window_getElem? s k (by simp at hk; omega)]
  exact h

end Sys2Proof.Machine
end

