-- ==== Sys2Proof/Laws/State.lean ====
section
/-! SUPPORT. One lemma per field per update of the state, and the laws of the register file, so that no proof unfolds a record
update. -/

namespace Sys2Proof.Machine

@[simp] theorem committed_regs (s : State) (d : Reg) (v : Word) (len : Nat) :
    (committed s d v len).regs = s.regs.set d v := rfl
@[simp] theorem committed_pc (s : State) (d : Reg) (v : Word) (len : Nat) :
    (committed s d v len).pc = s.pc + len := rfl
@[simp] theorem committed_cursor (s : State) (d : Reg) (v : Word) (len : Nat) :
    (committed s d v len).cursor = s.cursor := rfl
@[simp] theorem committed_status (s : State) (d : Reg) (v : Word) (len : Nat) :
    (committed s d v len).status = s.status := rfl
@[simp] theorem committed_buf (s : State) (d : Reg) (v : Word) (len : Nat) :
    (committed s d v len).buf = s.buf := rfl

@[simp] theorem takeFault_regs (s : State) (f : Status) : (takeFault s f).regs = s.regs := rfl
@[simp] theorem takeFault_pc (s : State) (f : Status) : (takeFault s f).pc = s.pc := rfl
@[simp] theorem takeFault_cursor (s : State) (f : Status) : (takeFault s f).cursor = s.cursor := rfl
@[simp] theorem takeFault_status (s : State) (f : Status) : (takeFault s f).status = f := rfl
@[simp] theorem takeFault_buf (s : State) (f : Status) : (takeFault s f).buf = s.buf := rfl

@[simp] theorem raiseDecode_regs (s : State) (o : Nat) (r : DecodeReason) : (raiseDecode s o r).regs = s.regs := rfl
@[simp] theorem raiseDecode_pc (s : State) (o : Nat) (r : DecodeReason) : (raiseDecode s o r).pc = s.pc := rfl
@[simp] theorem raiseDecode_cursor (s : State) (o : Nat) (r : DecodeReason) : (raiseDecode s o r).cursor = s.cursor := rfl
@[simp] theorem raiseDecode_status (s : State) (o : Nat) (r : DecodeReason) :
    (raiseDecode s o r).status = .decodeFault o r := rfl
@[simp] theorem raiseDecode_buf (s : State) (o : Nat) (r : DecodeReason) : (raiseDecode s o r).buf = s.buf := rfl

@[simp] theorem raisePrefix_regs (s : State) : (raisePrefix s).regs = s.regs := rfl
@[simp] theorem raisePrefix_pc (s : State) : (raisePrefix s).pc = s.pc := rfl
@[simp] theorem raisePrefix_cursor (s : State) : (raisePrefix s).cursor = s.cursor := rfl
@[simp] theorem raisePrefix_status (s : State) :
    (raisePrefix s).status = .decodeFault (s.cursor + 1) .unknownOpcode := rfl
@[simp] theorem raisePrefix_buf (s : State) : (raisePrefix s).buf = s.buf := rfl

@[simp] theorem raiseExecute_regs (s : State) (r : ExecuteReason) : (raiseExecute s r).regs = s.regs := rfl
@[simp] theorem raiseExecute_pc (s : State) (r : ExecuteReason) : (raiseExecute s r).pc = s.pc := rfl
@[simp] theorem raiseExecute_cursor (s : State) (r : ExecuteReason) : (raiseExecute s r).cursor = s.cursor := rfl
@[simp] theorem raiseExecute_status (s : State) (r : ExecuteReason) :
    (raiseExecute s r).status = .executeFault s.pc r := rfl
@[simp] theorem raiseExecute_buf (s : State) (r : ExecuteReason) : (raiseExecute s r).buf = s.buf := rfl

@[simp] theorem advanceCursor_regs (s : State) (n : Nat) : (advanceCursor s n).regs = s.regs := rfl
@[simp] theorem advanceCursor_pc (s : State) (n : Nat) : (advanceCursor s n).pc = s.pc := rfl
@[simp] theorem advanceCursor_cursor (s : State) (n : Nat) : (advanceCursor s n).cursor = s.cursor + n := rfl
@[simp] theorem advanceCursor_status (s : State) (n : Nat) : (advanceCursor s n).status = s.status := rfl
@[simp] theorem advanceCursor_buf (s : State) (n : Nat) : (advanceCursor s n).buf = s.buf := rfl

/-- A register just written reads as the value written. -/
@[simp] theorem regs_get_set_same (x : Regs) (r : Reg) (v : Word) : (x.set r v).get r = v := by
  cases r <;> rfl

/-- Writing one register leaves the others. -/
theorem regs_get_set_other (x : Regs) (r q : Reg) (v : Word) (h : q ≠ r) : (x.set r v).get q = x.get q := by
  cases r <;> cases q <;> first | rfl | exact absurd rfl h

/-- Two register files with the same four readings are the same. -/
theorem regs_ext (x y : Regs) (h : ∀ r, x.get r = y.get r) : x = y := by
  cases x; cases y
  have hA := h .A; have hB := h .B; have hC := h .C; have hD := h .D
  simp only [Regs.get] at hA hB hC hD
  subst hA; subst hB; subst hC; subst hD
  rfl

end Sys2Proof.Machine
end

