-- ==== Sys2Proof/Laws/Ops.lean ====
section
/-! SUPPORT. For each shared operation, once, everything it can do when it answers a next state. The provers cite these
instead of unfolding the operations. -/

namespace Sys2Proof.Machine

/-- In `Running` the guarded operation is the operation. -/
@[simp] theorem whenRunning_running {s : State} (h : s.status = .running) (k : Outcome) : whenRunning s k = k := by
  simp [whenRunning, h]

/-- After a fault the guarded operation has no step. -/
theorem whenRunning_stopped {s : State} (h : s.status ≠ .running) (k : Outcome) :
    whenRunning s k = .fault .terminal := by
  unfold whenRunning
  split
  · exact absurd ‹_› h
  · rfl
  · rfl

/-- A guarded operation answers a next state only in `Running`, and then the operation's own. -/
theorem whenRunning_next {s t : State} {k : Outcome} (h : whenRunning s k = .next t) :
    s.status = .running ∧ k = .next t := by
  by_cases hs : s.status = .running
  · exact ⟨hs, by simpa [hs] using h⟩
  · rw [whenRunning_stopped hs] at h; cases h

theorem commit_next {s t : State} {d : Reg} {v : Word} {len : Nat} (h : commit s d v len = .next t) :
    t = committed s d v len := by
  cases h; rfl

/-- A checked commit completes with its value or takes `ArithmeticOverflow`. -/
theorem commitChecked_next {s t : State} {d : Reg} {v : Option Word} {len : Nat}
    (h : commitChecked s d v len = .next t) :
    (∃ w, v = some w ∧ t = committed s d w len) ∨ (v = none ∧ t = raiseExecute s .arithmeticOverflow) := by
  cases v with
  | some w => exact .inl ⟨w, rfl, commit_next h⟩
  | none => cases h; exact .inr ⟨rfl, rfl⟩

/-- A register field names a register, or `InvalidRegister` is taken. -/
theorem withRegister_next {s t : State} {c : BitVec 3} {k : Reg → Outcome} (h : withRegister s c k = .next t) :
    (∃ r, regOf c = some r ∧ k r = .next t) ∨ (regOf c = none ∧ t = raiseExecute s .invalidRegister) := by
  unfold withRegister at h
  split at h
  · next r hr => exact .inl ⟨r, hr, h⟩
  · next hr => cases h; exact .inr ⟨hr, rfl⟩

@[simp] theorem withRegister_some {s : State} {c : BitVec 3} {r : Reg} (h : regOf c = some r) (k : Reg → Outcome) :
    withRegister s c k = k r := by
  simp [withRegister, h]

@[simp] theorem withRegister_none {s : State} {c : BitVec 3} (h : regOf c = none) (k : Reg → Outcome) :
    withRegister s c k = .next (raiseExecute s .invalidRegister) := by
  simp [withRegister, h]

/-- Both register fields name registers, or `InvalidRegister` is taken. -/
theorem withRegisters_next {s t : State} {a b : BitVec 3} {k : Reg → Reg → Outcome}
    (h : withRegisters s a b k = .next t) :
    (∃ d r, regOf a = some d ∧ regOf b = some r ∧ k d r = .next t) ∨
      ((regOf a = none ∨ regOf b = none) ∧ t = raiseExecute s .invalidRegister) := by
  rcases withRegister_next h with ⟨d, hd, h⟩ | ⟨hd, h⟩
  · rcases withRegister_next h with ⟨r, hr, h⟩ | ⟨hr, h⟩
    · exact .inl ⟨d, r, hd, hr, h⟩
    · exact .inr ⟨.inr hr, h⟩
  · exact .inr ⟨.inl hd, h⟩

/-- A load of an implied register completes. -/
theorem loadRegister_next {s t : State} {d : Reg} {v : Word} {len : Nat} (h : loadRegister s d v len = .next t) :
    s.status = .running ∧ t = committed s d v len := by
  obtain ⟨hs, h⟩ := whenRunning_next h
  exact ⟨hs, commit_next h⟩

/-- A two-register operation without overflow check completes or takes `InvalidRegister`. -/
theorem plainOM_next {s t : State} {a b : BitVec 3} {len : Nat} {f : Word → Word → Word}
    (h : plainOM s a b len f = .next t) :
    s.status = .running ∧
      ((∃ d r, regOf a = some d ∧ regOf b = some r ∧ t = committed s d (f (s.reg d) (s.reg r)) len) ∨
        ((regOf a = none ∨ regOf b = none) ∧ t = raiseExecute s .invalidRegister)) := by
  obtain ⟨hs, h⟩ := whenRunning_next h
  refine ⟨hs, ?_⟩
  rcases withRegisters_next h with ⟨d, r, hd, hr, h⟩ | h
  · exact .inl ⟨d, r, hd, hr, commit_next h⟩
  · exact .inr h

/-- A two-register operation with overflow check completes, or takes `InvalidRegister` or `ArithmeticOverflow`. -/
theorem checkedOM_next {s t : State} {a b : BitVec 3} {len : Nat} {f : Word → Word → Option Word}
    (h : checkedOM s a b len f = .next t) :
    s.status = .running ∧
      ((∃ d r w, regOf a = some d ∧ regOf b = some r ∧ f (s.reg d) (s.reg r) = some w ∧ t = committed s d w len) ∨
        (∃ d r, regOf a = some d ∧ regOf b = some r ∧ f (s.reg d) (s.reg r) = none ∧
          t = raiseExecute s .arithmeticOverflow) ∨
        ((regOf a = none ∨ regOf b = none) ∧ t = raiseExecute s .invalidRegister)) := by
  obtain ⟨hs, h⟩ := whenRunning_next h
  refine ⟨hs, ?_⟩
  rcases withRegisters_next h with ⟨d, r, hd, hr, h⟩ | h
  · rcases commitChecked_next h with ⟨w, hw, h⟩ | ⟨hw, h⟩
    · exact .inl ⟨d, r, w, hd, hr, hw, h⟩
    · exact .inr (.inl ⟨d, r, hd, hr, hw, h⟩)
  · exact .inr (.inr h)

/-- A register and immediate operation completes or takes `ArithmeticOverflow`. -/
theorem checkedImm_next {s t : State} {d : Reg} {imm : BitVec 32} {len : Nat} {f : Word → Word → Option Word}
    (h : checkedImm s d imm len f = .next t) :
    (∃ w, f (s.reg d) (sext64 imm) = some w ∧ t = committed s d w len) ∨
      (f (s.reg d) (sext64 imm) = none ∧ t = raiseExecute s .arithmeticOverflow) :=
  commitChecked_next h

/-- A reserved sub-selector takes `UnsupportedSubOpcode`. -/
theorem unsupportedSubOpcode_next {s t : State} (h : unsupportedSubOpcode s = .next t) :
    s.status = .running ∧ t = raiseExecute s .unsupportedSubOpcode := by
  obtain ⟨hs, h⟩ := whenRunning_next h
  cases h
  exact ⟨hs, rfl⟩

/-- An exact result exists where the integer is in `S64`, and denotes it. -/
theorem exact64_eq_some {t : Int} {w : Word} : exact64 t = some w ↔ min64 ≤ t ∧ t ≤ max64 ∧ w.toInt = t := by
  unfold exact64
  constructor
  · intro h
    split at h
    · next hr =>
      cases h
      refine ⟨hr.1, hr.2, ?_⟩
      obtain ⟨h1, h2⟩ := hr
      simp only [min64, max64] at h1 h2
      simp only [BitVec.toInt_ofInt, Int.bmod]
      omega
    · cases h
  · rintro ⟨h1, h2, rfl⟩
    simp [h1, h2]

theorem exact64_eq_none {t : Int} : exact64 t = none ↔ t < min64 ∨ max64 < t := by
  unfold exact64
  split <;> simp <;> omega

/-- DECODE_NEXT on bytes that are an instruction with a record. -/
theorem decodeNext_record {s : State} {i : Instr} {r : Record} (h : s.status = .running)
    (hd : decode (window s) = .instr i) (hr : i.record = some r) :
    decodeNext s = .decoded r i (advanceCursor s i.length) := by
  simp only [decodeNext, h, hd, hr]

/-- DECODE_NEXT on a prefix and a byte that is no opcode. -/
theorem decodeNext_w {s : State} {p nxt : Byte} (h : s.status = .running) (hd : decode (window s) = .instr (.w p nxt)) :
    decodeNext s = .faulted (raisePrefix s) := by
  simp only [decodeNext, h, hd, Instr.record]

/-- Everything a DECODE_NEXT can answer where there is one: a record with the cursor past its bytes, the fault of a prefix
without an opcode, or the fault the decoder finds. -/
theorem decodeNext_running {s : State} (h : s.status = .running) :
    (∃ r i, decode (window s) = .instr i ∧ i.record = some r ∧
        decodeNext s = .decoded r i (advanceCursor s i.length)) ∨
      (∃ p nxt, decode (window s) = .instr (.w p nxt) ∧ decodeNext s = .faulted (raisePrefix s)) ∨
      ∃ off reason, decode (window s) = .fault off reason ∧
        decodeNext s = .faulted (raiseDecode s (s.cursor + off) reason) := by
  cases hd : decode (window s) with
  | fault off reason => exact .inr (.inr ⟨off, reason, rfl, by simp only [decodeNext, h, hd]⟩)
  | instr i =>
    cases hr : i.record with
    | some r => exact .inl ⟨r, i, rfl, hr, decodeNext_record h hd hr⟩
    | none =>
      obtain ⟨p, nxt, rfl⟩ := record_eq_none.1 hr
      exact .inr (.inl ⟨p, nxt, rfl, decodeNext_w h hd⟩)

/-- DECODE_NEXT on bytes that are none. -/
theorem decodeNext_fault {s : State} {off : Nat} {reason : DecodeReason} (h : s.status = .running)
    (hd : decode (window s) = .fault off reason) :
    decodeNext s = .faulted (raiseDecode s (s.cursor + off) reason) := by
  unfold decodeNext
  rw [h, hd]

/-- With bytes left, the step on bytes that are an instruction answers what `exec` of it does: for `w` too, whose fault
DECODE_NEXT has raised. -/
theorem runOnce_instr {s : State} {i : Instr} (h : s.status = .running) (hc : s.cursor < s.buf.size)
    (hd : decode (window s) = .instr i) : runOnce exec s = exec i (advanceCursor s i.length) := by
  have hm : hasMore s = true := by simpa [hasMore] using hc
  cases hr : i.record with
  | some r => simp [runOnce, h, hm, decodeNext_record h hd hr]
  | none =>
    obtain ⟨p, nxt, rfl⟩ := record_eq_none.1 hr
    have hw : exec (.w p nxt) s = .next (raisePrefix s) := whenRunning_running h _
    simp only [runOnce, whenRunning_running h, hm, if_true, decodeNext_w h hd]
    exact hw.symm

/-- Everything a step that answers a next state can do: run a decoded instruction, or take a decode fault. -/
theorem step_next {s t : State} (h : step s = .next t) :
    s.status = .running ∧ s.cursor < s.buf.size ∧
      ((∃ i, decode (window s) = .instr i ∧ exec i (advanceCursor s i.length) = .next t) ∨
        (∃ off reason, decode (window s) = .fault off reason ∧ t = raiseDecode s (s.cursor + off) reason)) := by
  obtain ⟨hs, h⟩ := whenRunning_next h
  refine ⟨hs, ?_⟩
  split at h
  · next hm =>
    refine ⟨by simpa [hasMore] using hm, ?_⟩
    cases hd : decode (window s) with
    | instr i =>
      refine .inl ⟨i, rfl, ?_⟩
      rw [← runOnce_instr hs (by simpa [hasMore] using hm) hd]
      simpa [runOnce, hs, hm] using h
    | fault off reason => rw [decodeNext_fault hs hd] at h; cases h; exact .inr ⟨off, reason, rfl, rfl⟩
  · cases h

end Sys2Proof.Machine
end

