-- ==== Sys2Proof/Laws/PerInstr.lean ====
section
/-! SUPPORT. Statements made for every constructor of `Instr`, one lemma each. -/

namespace Sys2Proof.Laws

/-- The encoding of an instruction has as many bytes as DECODE_NEXT consumes for it, 2 to 10 (30_encoding.md R60, R62); the
two bytes of `w` are read and none is consumed. -/
def EncodedSize.Statement (i : Instr) : Prop :=
  2 ≤ (encode i).length ∧ (encode i).length ≤ maxLength ∧ (i.length = (encode i).length ∨ i.length = 0)

theorem encodeOM_size (pre : Option Byte) (k : OMOp) (reg rm : BitVec 3) :
    (encodeOM pre k reg rm).length = lengthWith pre 2 := by cases pre <;> rfl

theorem encodeOMI_size (pre : Option Byte) (k : OMIOp) (sel rm : BitVec 3) (imm : BitVec 32) :
    (encodeOMI pre k sel rm imm).length = lengthWith pre 6 := by cases pre <;> rfl

theorem encodeAI_size (pre : Option Byte) (k : AIOp) (imm : BitVec 32) :
    (encodeAI pre k imm).length = lengthWith pre 5 := by cases pre <;> rfl

/-- A prefix adds one byte. -/
theorem lengthWith_bounds (pre : Option Byte) (base : Nat) : base ≤ lengthWith pre base ∧ lengthWith pre base ≤ base + 1 := by
  cases pre <;> simp [lengthWith]

theorem sizeOM (pre : Option Byte) (k : OMOp) (reg rm : BitVec 3) :
    2 ≤ (encodeOM pre k reg rm).length ∧ (encodeOM pre k reg rm).length ≤ maxLength ∧
      (lengthWith pre 2 = (encodeOM pre k reg rm).length ∨ lengthWith pre 2 = 0) := by
  have h := lengthWith_bounds pre 2
  rw [encodeOM_size]
  exact ⟨h.1, Nat.le_trans h.2 (by decide), .inl rfl⟩

theorem sizeOMI (pre : Option Byte) (k : OMIOp) (sel rm : BitVec 3) (imm : BitVec 32) :
    2 ≤ (encodeOMI pre k sel rm imm).length ∧ (encodeOMI pre k sel rm imm).length ≤ maxLength ∧
      (lengthWith pre 6 = (encodeOMI pre k sel rm imm).length ∨ lengthWith pre 6 = 0) := by
  have h := lengthWith_bounds pre 6
  rw [encodeOMI_size]
  exact ⟨by omega, Nat.le_trans h.2 (by decide), .inl rfl⟩

theorem sizeAI (pre : Option Byte) (k : AIOp) (imm : BitVec 32) :
    2 ≤ (encodeAI pre k imm).length ∧ (encodeAI pre k imm).length ≤ maxLength ∧
      (lengthWith pre 5 = (encodeAI pre k imm).length ∨ lengthWith pre 5 = 0) := by
  have h := lengthWith_bounds pre 5
  rw [encodeAI_size]
  exact ⟨by omega, Nat.le_trans h.2 (by decide), .inl rfl⟩

theorem EncodedSize.w (p nxt : Byte) : EncodedSize.Statement (.w p nxt) :=
  ⟨Nat.le_of_ble_eq_true rfl, Nat.le_of_ble_eq_true rfl, .inr rfl⟩

theorem EncodedSize.loadiA (imm : BitVec 32) : EncodedSize.Statement (.loadiA imm) :=
  ⟨Nat.le_of_ble_eq_true rfl, Nat.le_of_ble_eq_true rfl, .inl rfl⟩

theorem EncodedSize.loadiC (imm : BitVec 32) : EncodedSize.Statement (.loadiC imm) :=
  ⟨Nat.le_of_ble_eq_true rfl, Nat.le_of_ble_eq_true rfl, .inl rfl⟩

theorem EncodedSize.loadiD (imm : BitVec 32) : EncodedSize.Statement (.loadiD imm) :=
  ⟨Nat.le_of_ble_eq_true rfl, Nat.le_of_ble_eq_true rfl, .inl rfl⟩

theorem EncodedSize.loadiB (imm : BitVec 32) : EncodedSize.Statement (.loadiB imm) :=
  ⟨Nat.le_of_ble_eq_true rfl, Nat.le_of_ble_eq_true rfl, .inl rfl⟩

theorem EncodedSize.loadi64A (p : Byte) (imm : BitVec 64) : EncodedSize.Statement (.loadi64A p imm) :=
  ⟨Nat.le_of_ble_eq_true rfl, Nat.le_of_ble_eq_true rfl, .inl rfl⟩

theorem EncodedSize.loadi64C (p : Byte) (imm : BitVec 64) : EncodedSize.Statement (.loadi64C p imm) :=
  ⟨Nat.le_of_ble_eq_true rfl, Nat.le_of_ble_eq_true rfl, .inl rfl⟩

theorem EncodedSize.loadi64D (p : Byte) (imm : BitVec 64) : EncodedSize.Statement (.loadi64D p imm) :=
  ⟨Nat.le_of_ble_eq_true rfl, Nat.le_of_ble_eq_true rfl, .inl rfl⟩

theorem EncodedSize.loadi64B (p : Byte) (imm : BitVec 64) : EncodedSize.Statement (.loadi64B p imm) :=
  ⟨Nat.le_of_ble_eq_true rfl, Nat.le_of_ble_eq_true rfl, .inl rfl⟩

theorem EncodedSize.movMR (pre : Option Byte) (reg rm : BitVec 3) : EncodedSize.Statement (.movMR pre reg rm) :=
  sizeOM _ _ _ _

theorem EncodedSize.movRM (pre : Option Byte) (reg rm : BitVec 3) : EncodedSize.Statement (.movRM pre reg rm) :=
  sizeOM _ _ _ _

theorem EncodedSize.add (pre : Option Byte) (reg rm : BitVec 3) : EncodedSize.Statement (.add pre reg rm) :=
  sizeOM _ _ _ _

theorem EncodedSize.sub (pre : Option Byte) (reg rm : BitVec 3) : EncodedSize.Statement (.sub pre reg rm) :=
  sizeOM _ _ _ _

theorem EncodedSize.xor (pre : Option Byte) (reg rm : BitVec 3) : EncodedSize.Statement (.xor pre reg rm) :=
  sizeOM _ _ _ _

theorem EncodedSize.addi (pre : Option Byte) (rm : BitVec 3) (imm : BitVec 32) : EncodedSize.Statement (.addi pre rm imm) :=
  sizeOMI _ _ _ _ _

theorem EncodedSize.subi (pre : Option Byte) (rm : BitVec 3) (imm : BitVec 32) : EncodedSize.Statement (.subi pre rm imm) :=
  sizeOMI _ _ _ _ _

theorem EncodedSize.reserved81s1 (pre : Option Byte) (rm : BitVec 3) (imm : BitVec 32) : EncodedSize.Statement (.reserved81s1 pre rm imm) :=
  sizeOMI _ _ _ _ _

theorem EncodedSize.reserved81s2 (pre : Option Byte) (rm : BitVec 3) (imm : BitVec 32) : EncodedSize.Statement (.reserved81s2 pre rm imm) :=
  sizeOMI _ _ _ _ _

theorem EncodedSize.reserved81s3 (pre : Option Byte) (rm : BitVec 3) (imm : BitVec 32) : EncodedSize.Statement (.reserved81s3 pre rm imm) :=
  sizeOMI _ _ _ _ _

theorem EncodedSize.reserved81s4 (pre : Option Byte) (rm : BitVec 3) (imm : BitVec 32) : EncodedSize.Statement (.reserved81s4 pre rm imm) :=
  sizeOMI _ _ _ _ _

theorem EncodedSize.reserved81s6 (pre : Option Byte) (rm : BitVec 3) (imm : BitVec 32) : EncodedSize.Statement (.reserved81s6 pre rm imm) :=
  sizeOMI _ _ _ _ _

theorem EncodedSize.reserved81s7 (pre : Option Byte) (rm : BitVec 3) (imm : BitVec 32) : EncodedSize.Statement (.reserved81s7 pre rm imm) :=
  sizeOMI _ _ _ _ _

theorem EncodedSize.adda (pre : Option Byte) (imm : BitVec 32) : EncodedSize.Statement (.adda pre imm) :=
  sizeAI _ _ _

theorem EncodedSize.suba (pre : Option Byte) (imm : BitVec 32) : EncodedSize.Statement (.suba pre imm) :=
  sizeAI _ _ _

theorem EncodedSize.storei (pre : Option Byte) (rm : BitVec 3) (imm : BitVec 32) : EncodedSize.Statement (.storei pre rm imm) :=
  sizeOMI _ _ _ _ _

theorem EncodedSize.reservedC7s1 (pre : Option Byte) (rm : BitVec 3) (imm : BitVec 32) : EncodedSize.Statement (.reservedC7s1 pre rm imm) :=
  sizeOMI _ _ _ _ _

theorem EncodedSize.reservedC7s2 (pre : Option Byte) (rm : BitVec 3) (imm : BitVec 32) : EncodedSize.Statement (.reservedC7s2 pre rm imm) :=
  sizeOMI _ _ _ _ _

theorem EncodedSize.reservedC7s3 (pre : Option Byte) (rm : BitVec 3) (imm : BitVec 32) : EncodedSize.Statement (.reservedC7s3 pre rm imm) :=
  sizeOMI _ _ _ _ _

theorem EncodedSize.reservedC7s4 (pre : Option Byte) (rm : BitVec 3) (imm : BitVec 32) : EncodedSize.Statement (.reservedC7s4 pre rm imm) :=
  sizeOMI _ _ _ _ _

theorem EncodedSize.reservedC7s5 (pre : Option Byte) (rm : BitVec 3) (imm : BitVec 32) : EncodedSize.Statement (.reservedC7s5 pre rm imm) :=
  sizeOMI _ _ _ _ _

theorem EncodedSize.reservedC7s6 (pre : Option Byte) (rm : BitVec 3) (imm : BitVec 32) : EncodedSize.Statement (.reservedC7s6 pre rm imm) :=
  sizeOMI _ _ _ _ _

theorem EncodedSize.reservedC7s7 (pre : Option Byte) (rm : BitVec 3) (imm : BitVec 32) : EncodedSize.Statement (.reservedC7s7 pre rm imm) :=
  sizeOMI _ _ _ _ _

end Sys2Proof.Laws
end

