-- ==== Sys2Proof/Tests/Slice0.lean ====
section
/-! SUPPORT. Small tests: the checks of WellFormed, a written-out word for every constructor, at most two single steps for
each instruction, and for each statement with hypotheses a witness that meets them. Results come from the vectors of
95_test_vectors.md named in the comments (the vector's last instruction, run at offset 0), or from the rule named. -/

namespace Sys2Proof.Tests

open Sys2Proof.Machine

/-- A running state with the four registers A, B, C, D and a buffer, both counters at 0. -/
def stateOf (a b c d : Word) (bs : List Byte) : State :=
  { regs := { a := a, b := b, c := c, d := d }, pc := 0, cursor := 0, status := .running, buf := Memory.ofBytes bs }

/-- A register after the step that runs the buffer's first instruction. -/
def regAfter (r : Reg) (s : State) : Option Word :=
  match step s with
  | .next t => some (t.reg r)
  | .fault _ => none
  | .refused _ => none

/-- `STATUS`, `pc` and cursor after one step. -/
def endOf (s : State) : Option (Status × Nat × Nat) :=
  match step s with
  | .next t => some (t.status, t.pc, t.cursor)
  | .fault _ => none
  | .refused _ => none

/-- The status a next state holds. -/
def statusOf : Outcome → Option Status
  | .next t => some t.status
  | .fault _ => none
  | .refused _ => none

/-- A status is held by a next state. -/
theorem next_of_status {k : Outcome} {f : Status} (h : statusOf k = some f) : ∃ t, k = .next t ∧ t.status = f := by
  cases k with
  | next t => exact ⟨t, rfl, Option.some.inj h⟩
  | fault _ => cases h
  | refused _ => cases h

/-! ## WellFormed refuses an ill-formed term for each check -/

/-- A byte outside 0x40 to 0x4F is in no `PREFIX_SET`, and 0xB8 after a prefix is an opcode (R63, R93). -/
theorem test_wf_refuses : ∀ i ∈ (
    [.w 0x90 0x90, .w 0x48 0xb8, .loadi64A 0x90 0, .loadi64C 0x90 0, .loadi64D 0x90 0, .loadi64B 0x90 0,
     .movMR (some 0x90) 0 0, .movRM (some 0x90) 0 0, .add (some 0x90) 0 0, .sub (some 0x90) 0 0,
     .xor (some 0x90) 0 0, .addi (some 0x90) 0 0, .subi (some 0x90) 0 0, .storei (some 0x90) 0 0,
     .reserved81s1 (some 0x90) 0 0, .reserved81s2 (some 0x90) 0 0, .reserved81s3 (some 0x90) 0 0,
     .reserved81s4 (some 0x90) 0 0, .reserved81s6 (some 0x90) 0 0, .reserved81s7 (some 0x90) 0 0,
     .reservedC7s1 (some 0x90) 0 0, .reservedC7s2 (some 0x90) 0 0, .reservedC7s3 (some 0x90) 0 0,
     .reservedC7s4 (some 0x90) 0 0, .reservedC7s5 (some 0x90) 0 0, .reservedC7s6 (some 0x90) 0 0,
     .reservedC7s7 (some 0x90) 0 0, .adda (some 0x90) 0, .suba (some 0x90) 0] : List Instr), i.wf = false := by
  decide

/-- The form `w` with a byte that is no opcode, and an optional prefix that is absent or 0x48, are accepted. -/
theorem test_wf_accepts : ∀ i ∈ ([.w 0x48 0x48, .movMR none 7 7, .addi (some 0x48) 4 0, .loadi64A 0x48 0] : List Instr),
    i.wf = true := by
  decide

/-! ## Every constructor's decoding, from words written out by R61, R64, R70 and R73 -/

theorem test_decode_w : decode [0x48, 0x90] = .instr (.w 0x48 0x90) := rfl -- prefix, and 0x90 is no opcode
theorem test_decode_loadiA : -- opcode, imm32 little-endian
    decode [0xb8, 0x78, 0x56, 0x34, 0x12] = .instr (.loadiA 0x12345678) := rfl
theorem test_decode_loadiC : -- opcode, imm32 little-endian
    decode [0xb9, 0x78, 0x56, 0x34, 0x12] = .instr (.loadiC 0x12345678) := rfl
theorem test_decode_loadiD : -- opcode, imm32 little-endian
    decode [0xba, 0x78, 0x56, 0x34, 0x12] = .instr (.loadiD 0x12345678) := rfl
theorem test_decode_loadiB : -- opcode, imm32 little-endian
    decode [0xbb, 0x78, 0x56, 0x34, 0x12] = .instr (.loadiB 0x12345678) := rfl
theorem test_decode_loadi64A : -- prefix, opcode, imm64 little-endian
    decode [0x48, 0xb8, 0x88, 0x77, 0x66, 0x55, 0x44, 0x33, 0x22, 0x11] = .instr (.loadi64A 0x48 0x1122334455667788) := rfl
theorem test_decode_loadi64C : -- prefix, opcode, imm64 little-endian
    decode [0x48, 0xb9, 0x88, 0x77, 0x66, 0x55, 0x44, 0x33, 0x22, 0x11] = .instr (.loadi64C 0x48 0x1122334455667788) := rfl
theorem test_decode_loadi64D : -- prefix, opcode, imm64 little-endian
    decode [0x48, 0xba, 0x88, 0x77, 0x66, 0x55, 0x44, 0x33, 0x22, 0x11] = .instr (.loadi64D 0x48 0x1122334455667788) := rfl
theorem test_decode_loadi64B : -- prefix, opcode, imm64 little-endian
    decode [0x48, 0xbb, 0x88, 0x77, 0x66, 0x55, 0x44, 0x33, 0x22, 0x11] = .instr (.loadi64B 0x48 0x1122334455667788) := rfl
theorem test_decode_movMR : decode [0x89, 0b11001010] = .instr (.movMR none 1 2) := rfl -- 11 001 010
theorem test_decode_movRM : decode [0x48, 0x8b, 0b11010001] = .instr (.movRM (some 0x48) 2 1) := rfl -- 11 010 001
theorem test_decode_add : decode [0x01, 0b11011000] = .instr (.add none 3 0) := rfl -- 11 011 000
theorem test_decode_sub : decode [0x48, 0x29, 0b11100101] = .instr (.sub (some 0x48) 4 5) := rfl -- 11 100 101
theorem test_decode_xor : decode [0x31, 0b11111110] = .instr (.xor none 7 6) := rfl -- 11 111 110
theorem test_decode_addi : -- 11 000 011, imm32
    decode [0x48, 0x81, 0b11000011, 0x78, 0x56, 0x34, 0x12] = .instr (.addi (some 0x48) 3 0x12345678) := rfl
theorem test_decode_subi : -- 11 101 001, imm32
    decode [0x81, 0b11101001, 0x78, 0x56, 0x34, 0x12] = .instr (.subi none 1 0x12345678) := rfl
theorem test_decode_reserved81s1 : -- 11 001 011, imm32
    decode [0x48, 0x81, 0b11001011, 0x78, 0x56, 0x34, 0x12] = .instr (.reserved81s1 (some 0x48) 3 0x12345678) := rfl
theorem test_decode_reserved81s2 : -- 11 010 110, imm32
    decode [0x81, 0b11010110, 0x78, 0x56, 0x34, 0x12] = .instr (.reserved81s2 none 6 0x12345678) := rfl
theorem test_decode_reserved81s3 : -- 11 011 001, imm32
    decode [0x48, 0x81, 0b11011001, 0x78, 0x56, 0x34, 0x12] = .instr (.reserved81s3 (some 0x48) 1 0x12345678) := rfl
theorem test_decode_reserved81s4 : -- 11 100 100, imm32
    decode [0x81, 0b11100100, 0x78, 0x56, 0x34, 0x12] = .instr (.reserved81s4 none 4 0x12345678) := rfl
theorem test_decode_reserved81s6 : -- 11 110 010, imm32
    decode [0x81, 0b11110010, 0x78, 0x56, 0x34, 0x12] = .instr (.reserved81s6 none 2 0x12345678) := rfl
theorem test_decode_reserved81s7 : -- 11 111 101, imm32
    decode [0x48, 0x81, 0b11111101, 0x78, 0x56, 0x34, 0x12] = .instr (.reserved81s7 (some 0x48) 5 0x12345678) := rfl
theorem test_decode_adda : -- prefix, opcode, imm32
    decode [0x48, 0x05, 0x78, 0x56, 0x34, 0x12] = .instr (.adda (some 0x48) 0x12345678) := rfl
theorem test_decode_suba : -- opcode, imm32
    decode [0x2d, 0x78, 0x56, 0x34, 0x12] = .instr (.suba none 0x12345678) := rfl
theorem test_decode_storei : -- 11 000 010, imm32
    decode [0x48, 0xc7, 0b11000010, 0x78, 0x56, 0x34, 0x12] = .instr (.storei (some 0x48) 2 0x12345678) := rfl
theorem test_decode_reservedC7s1 : -- 11 001 101, imm32
    decode [0x48, 0xc7, 0b11001101, 0x78, 0x56, 0x34, 0x12] = .instr (.reservedC7s1 (some 0x48) 5 0x12345678) := rfl
theorem test_decode_reservedC7s2 : -- 11 010 010, imm32
    decode [0xc7, 0b11010010, 0x78, 0x56, 0x34, 0x12] = .instr (.reservedC7s2 none 2 0x12345678) := rfl
theorem test_decode_reservedC7s3 : -- 11 011 111, imm32
    decode [0x48, 0xc7, 0b11011111, 0x78, 0x56, 0x34, 0x12] = .instr (.reservedC7s3 (some 0x48) 7 0x12345678) := rfl
theorem test_decode_reservedC7s4 : -- 11 100 100, imm32
    decode [0xc7, 0b11100100, 0x78, 0x56, 0x34, 0x12] = .instr (.reservedC7s4 none 4 0x12345678) := rfl
theorem test_decode_reservedC7s5 : -- 11 101 001, imm32
    decode [0x48, 0xc7, 0b11101001, 0x78, 0x56, 0x34, 0x12] = .instr (.reservedC7s5 (some 0x48) 1 0x12345678) := rfl
theorem test_decode_reservedC7s6 : -- 11 110 110, imm32
    decode [0xc7, 0b11110110, 0x78, 0x56, 0x34, 0x12] = .instr (.reservedC7s6 none 6 0x12345678) := rfl
theorem test_decode_reservedC7s7 : -- 11 111 011, imm32
    decode [0x48, 0xc7, 0b11111011, 0x78, 0x56, 0x34, 0x12] = .instr (.reservedC7s7 (some 0x48) 3 0x12345678) := rfl

/-- Decode faults with their offsets, from the bytes of V-DEC-1 to V-DEC-9, V-MOV-9, V-G1-16 and V-G1-17. -/
theorem test_decode_faults :
    decode [0x90] = .fault 0 .unknownOpcode ∧ decode [0xb8, 2, 0] = .fault 1 .truncatedImmediate ∧
      decode [0x48, 0xb8, 2, 0, 0, 0, 0, 0, 0] = .fault 2 .truncatedImmediate ∧
      decode [0x01] = .fault 1 .truncatedInput ∧ decode [0x48] = .fault 1 .truncatedInput ∧
      decode [0x83, 0xc0, 1] = .fault 0 .unknownOpcode ∧ decode [0x89, 0x03] = .fault 1 .unsupportedAddressingMode ∧
      decode [0x81, 0xc8, 0, 0] = .fault 2 .truncatedImmediate ∧
      decode [0x81, 0x08, 0, 0, 0, 0] = .fault 1 .unsupportedAddressingMode := by
  decide

/-- DECODE_NEXT itself raises the fault of a prefix before a byte that is no opcode (R104, row 48 90). -/
theorem test_decode_next_prefix :
    decodeNext (stateOf 1 2 3 4 [0x48, 0x90]) = .faulted (raiseDecode (stateOf 1 2 3 4 [0x48, 0x90]) 1 .unknownOpcode) := rfl

/-- Words of the opcode table, numbered as the table numbers them: `op`, or `op` in the high byte and `m` in the low one. -/
theorem test_table_words :
    decodeTableWord 8 0x48 = some (.w 0x48 0) ∧ decodeTableWord 8 0xb9 = some (.loadiC 0) ∧
      decodeTableWord 16 0x89c3 = some (.movMR none 0 3) ∧ decodeTableWord 16 0x81e9 = some (.subi none 1 0) ∧
      decodeTableWord 8 0x2d = some (.suba none 0) ∧ decodeTableWord 16 0xc7f8 = some (.reservedC7s7 none 0 0) := by
  decide

/-- A table word placed where the step fetches is run by the next step. -/
theorem test_fetch_word :
    endOf (State.reset.withFetchWord 16 0x81f8) = some (.executeFault 0 .unsupportedSubOpcode, 0, 6) := by
  decide

/-! ## Single steps -/

theorem test_w_fault : -- V-DEC-2
    endOf (stateOf 0 0 0 0 [0x48, 0x48, 0x01, 0xc0]) = some (.decodeFault 1 .unknownOpcode, 0, 0) := rfl

theorem test_loadiA : -- V-LD-1
    regAfter .A (stateOf 0 0 0 0 [0xb8, 0x2a, 0, 0, 0]) = some 42 := rfl

theorem test_loadiC_sign : -- V-LD-2
    regAfter .C (stateOf 0 0 0 0 [0xb9, 0xff, 0xff, 0xff, 0xff]) = some 0xffffffffffffffff := rfl

theorem test_loadiD_sign : -- V-LD-3
    regAfter .D (stateOf 0 0 0 0 [0xba, 0, 0, 0, 0x80]) = some 0xffffffff80000000 := rfl

theorem test_loadiB : -- V-LD-4
    regAfter .B (stateOf 0 0 0 0 [0xbb, 0x10, 0x27, 0, 0]) = some 10000 := rfl

theorem test_loadi64A : -- V-LD-7
    regAfter .A (stateOf 0 0 0 0 [0x48, 0xb8, 0xff, 0xff, 0xff, 0xff, 0xff, 0xff, 0xff, 0x7f]) = some 0x7fffffffffffffff := rfl

theorem test_loadi64C : -- V-LD-8
    regAfter .C (stateOf 0 0 0 0 [0x48, 0xb9, 0, 0, 0, 0, 0, 0, 0, 0x80]) = some 0x8000000000000000 := rfl

theorem test_loadi64D : -- V-LD-9
    regAfter .D (stateOf 0 0 0 0 [0x48, 0xba, 0x88, 0x77, 0x66, 0x55, 0x44, 0x33, 0x22, 0x11]) = some 0x1122334455667788 := rfl

theorem test_loadi64B_raw : -- V-LD-10
    regAfter .B (stateOf 0 0 0 0 [0x48, 0xbb, 0, 0, 0, 0x80, 0, 0, 0, 0]) = some 0x80000000 := rfl

theorem test_loadi64A_length : -- R62, R135
    endOf (stateOf 0 0 0 0 [0x48, 0xb8, 1, 0, 0, 0, 0, 0, 0, 0]) = some (.running, 10, 10) := rfl

theorem test_movMR_direction : -- V-MOV-4
    regAfter .D (stateOf 1 2 0xffffffffffffffff 4 [0x89, 0xca]) = some 0xffffffffffffffff := rfl

theorem test_movMR_invalid : -- V-MOV-7
    endOf (stateOf 0 0 0 0 [0x89, 0xc7]) = some (.executeFault 0 .invalidRegister, 0, 2) := rfl

theorem test_movRM_direction : -- V-MOV-5
    regAfter .D (stateOf 1 2 0xffffffffffffffff 4 [0x8b, 0xd1]) = some 0xffffffffffffffff := rfl

theorem test_movRM_invalid : -- V-MOV-8
    endOf (stateOf 0 0 0 0 [0x8b, 0xf8]) = some (.executeFault 0 .invalidRegister, 0, 2) := rfl

theorem test_add_doubles : -- V-ADD-4
    regAfter .A (stateOf 21 0 0 0 [0x01, 0xc0]) = some 42 := rfl

theorem test_add_overflow : -- V-ADD-6
    endOf (stateOf 0x8000000000000000 0 0 0 [0x48, 0x01, 0xc0]) = some (.executeFault 0 .arithmeticOverflow, 0, 3) := rfl

theorem test_sub_minuend_is_rm : -- V-SUB-2
    regAfter .A (stateOf 3 0 5 0 [0x29, 0xc8]) = some 0xfffffffffffffffe := rfl

theorem test_sub_overflow : -- V-SUB-4
    endOf (stateOf 0 0 0x8000000000000000 0 [0x48, 0x29, 0xc8]) = some (.executeFault 0 .arithmeticOverflow, 0, 3) := rfl

theorem test_xor : -- V-XOR-2
    regAfter .A (stateOf 0xff 0xf0f 0 0 [0x31, 0xd8]) = some 0xff0 := rfl

theorem test_xor_invalid : -- V-XOR-7
    endOf (stateOf 0 0 0 0 [0x31, 0xf8]) = some (.executeFault 0 .invalidRegister, 0, 2) := rfl

theorem test_addi_crosses_32_bits : -- V-G1-10
    regAfter .A (stateOf 0x7fffffff 0 0 0 [0x48, 0x81, 0xc0, 1, 0, 0, 0]) = some 0x80000000 := rfl

theorem test_addi_overflow : -- V-G1-8
    endOf (stateOf 0x8000000000000000 0 0 0 [0x48, 0x81, 0xc0, 0xff, 0xff, 0xff, 0xff]) = some (.executeFault 0 .arithmeticOverflow, 0, 7) := rfl

theorem test_subi_sign : -- V-G1-5
    regAfter .A (stateOf 0 0 0 0 [0x48, 0x81, 0xe8, 0, 0, 0, 0x80]) = some 0x80000000 := rfl

theorem test_subi_overflow : -- V-G1-6
    endOf (stateOf 0 0 0 0x8000000000000000 [0x48, 0x81, 0xea, 1, 0, 0, 0]) = some (.executeFault 0 .arithmeticOverflow, 0, 7) := rfl

theorem test_adda_sign : -- V-ACC-2
    regAfter .A (stateOf 0 0 0 0 [0x48, 0x05, 0xff, 0xff, 0xff, 0xff]) = some 0xffffffffffffffff := rfl

theorem test_adda_overflow : -- V-ACC-6
    endOf (stateOf 0x7fffffffffffffff 0 0 0 [0x05, 1, 0, 0, 0]) = some (.executeFault 0 .arithmeticOverflow, 0, 5) := rfl

theorem test_suba_to_max : -- V-ACC-9
    regAfter .A (stateOf 0x7fffffff7fffffff 0 0 0 [0x2d, 0, 0, 0, 0x80]) = some 0x7fffffffffffffff := rfl

theorem test_suba_overflow : -- V-ACC-8
    endOf (stateOf 0x7fffffff80000000 0 0 0 [0x2d, 0, 0, 0, 0x80]) = some (.executeFault 0 .arithmeticOverflow, 0, 5) := rfl

theorem test_storei_replaces : -- V-ST-3
    regAfter .B (stateOf 0 0x1122334455667788 0 0 [0xc7, 0xc3, 1, 0, 0, 0]) = some 1 := rfl

theorem test_storei_invalid : -- V-ST-7
    endOf (stateOf 0 0 0 0 [0xc7, 0xc5, 1, 0, 0, 0]) = some (.executeFault 0 .invalidRegister, 0, 6) := rfl

theorem test_reserved81s1 : -- V-G1-15
    endOf (stateOf 0 0 0 0 [0x81, 0xcc, 1, 0, 0, 0]) = some (.executeFault 0 .unsupportedSubOpcode, 0, 6) := rfl

theorem test_reserved81s2 : -- R162
    endOf (stateOf 0 0 0 0 [0x81, 0xd0, 1, 0, 0, 0]) = some (.executeFault 0 .unsupportedSubOpcode, 0, 6) := rfl

theorem test_reserved81s3 : -- R162
    endOf (stateOf 0 0 0 0 [0x81, 0xd8, 1, 0, 0, 0]) = some (.executeFault 0 .unsupportedSubOpcode, 0, 6) := rfl

theorem test_reserved81s4 : -- R162
    endOf (stateOf 0 0 0 0 [0x81, 0xe0, 1, 0, 0, 0]) = some (.executeFault 0 .unsupportedSubOpcode, 0, 6) := rfl

theorem test_reserved81s6 : -- R162
    endOf (stateOf 0 0 0 0 [0x81, 0xf0, 1, 0, 0, 0]) = some (.executeFault 0 .unsupportedSubOpcode, 0, 6) := rfl

theorem test_reserved81s7 : -- V-G1-12
    endOf (stateOf 0 0 0 0 [0x81, 0xf8, 1, 0, 0, 0]) = some (.executeFault 0 .unsupportedSubOpcode, 0, 6) := rfl

theorem test_reservedC7s1 : -- R181, as V-ST-6
    endOf (stateOf 0 0 0 0 [0x48, 0xc7, 0xc8, 1, 0, 0, 0]) = some (.executeFault 0 .unsupportedSubOpcode, 0, 7) := rfl

theorem test_reservedC7s2 : -- R181, as V-ST-6
    endOf (stateOf 0 0 0 0 [0x48, 0xc7, 0xd0, 1, 0, 0, 0]) = some (.executeFault 0 .unsupportedSubOpcode, 0, 7) := rfl

theorem test_reservedC7s3 : -- R181, as V-ST-6
    endOf (stateOf 0 0 0 0 [0x48, 0xc7, 0xd8, 1, 0, 0, 0]) = some (.executeFault 0 .unsupportedSubOpcode, 0, 7) := rfl

theorem test_reservedC7s4 : -- R181, as V-ST-6
    endOf (stateOf 0 0 0 0 [0x48, 0xc7, 0xe0, 1, 0, 0, 0]) = some (.executeFault 0 .unsupportedSubOpcode, 0, 7) := rfl

theorem test_reservedC7s5 : -- R181, as V-ST-6
    endOf (stateOf 0 0 0 0 [0x48, 0xc7, 0xe8, 1, 0, 0, 0]) = some (.executeFault 0 .unsupportedSubOpcode, 0, 7) := rfl

theorem test_reservedC7s6 : -- R181, as V-ST-6
    endOf (stateOf 0 0 0 0 [0x48, 0xc7, 0xf0, 1, 0, 0, 0]) = some (.executeFault 0 .unsupportedSubOpcode, 0, 7) := rfl

theorem test_reservedC7s7 : -- R181, as V-ST-6
    endOf (stateOf 0 0 0 0 [0x48, 0xc7, 0xf8, 1, 0, 0, 0]) = some (.executeFault 0 .unsupportedSubOpcode, 0, 7) := rfl


/-! ## The host -/

/-- Texts of S4 and V-HEX-1 to V-HEX-6. -/
theorem test_load_hex :
    loadHex "48 89 c3".toList = some [0x48, 0x89, 0xc3] ∧ loadHex "4889c3".toList = some [0x48, 0x89, 0xc3] ∧
      loadHex "4 89c3".toList = none ∧ loadHex "B8 2A 00 00 00".toList = some [0xb8, 0x2a, 0, 0, 0] ∧
      loadHex "b8 2g 00 00 00".toList = none ∧ loadHex "0xb8 2a 00 00 00".toList = none ∧
      loadHex "b 8 2a 00 00 00".toList = some [0xb8, 0x2a, 0, 0, 0] := by
  decide

/-- V-RES-1 to V-RES-6. -/
theorem test_result :
    result (stateOf 0x7fffffff 0 0 0 []) = .value 0x7fffffff ∧ result (stateOf 0x80000000 0 0 0 []) = .outOfRange ∧
      result (stateOf 0xffffffff80000000 0 0 0 []) = .value 0x80000000 ∧
      result (stateOf 0xffffffff7fffffff 0 0 0 []) = .outOfRange ∧ result (stateOf 0x100000005 0 0 0 []) = .outOfRange ∧
      result (stateOf 0xffffffffffffffff 0 0 0 []) = .value 0xffffffff := by
  decide

/-! ## Witnesses: for each statement with hypotheses, values that meet them all, clause by clause -/

theorem witness_DecodeOfEncodeIsTheInstruction :
    (Instr.add (some 0x48) 7 0).wf = true := by decide

theorem witness_DecodedBytesAreItsEncoding :
    decode [0x48, 0x01, 0xc8, 0xff] = .instr (.add (some 0x48) 1 0) := by decide

theorem witness_OtherBytesAreNoOpcode :
    isPrefix 0x48 = true ∧ opcodeOf 0x48 = none ∧ opcodeOf 0x90 = none ∧ isPrefix 0x90 = false ∧
      opcodeOf 0x3f = none ∧ isPrefix 0x3f = false ∧ opcodeOf 0x50 = none ∧ isPrefix 0x50 = false := by decide

/-- The boundaries 0xBF and 0xC0 of the operand byte, and three and four bytes after it. -/
theorem witness_AddressingModeIsCheckedFirst :
    (0xc0#8).toNat = 0xc0 ∧ (0xbf#8).toNat < 0xc0 ∧
      decode [0x89, 0xc0] = .instr (.movMR none 0 0) ∧ decode [0x89, 0xbf] = .fault 1 .unsupportedAddressingMode ∧
      decode [0x81, 0xc0, 1, 0, 0, 0] = .instr (.addi none 0 1) ∧
      decode [0x81, 0xc0, 1, 0, 0] = .fault 2 .truncatedImmediate ∧
      decode [0x81, 0xbf, 1, 0, 0] = .fault 1 .unsupportedAddressingMode := by decide

theorem witness_StepRunsTheDecodedInstruction :
    (stateOf 1 2 3 4 [0x31, 0xd8]).status = .running ∧
      decode (window (stateOf 1 2 3 4 [0x31, 0xd8])) = .instr (.xor none 3 0) := by decide

theorem witness_StepRunsTheEncodedInstruction :
    (stateOf 1 2 3 4 [0x31, 0xd8]).status = .running ∧ (Instr.xor none 3 0).wf = true ∧
      ∀ k, k < (encode (.xor none 3 0)).length →
        (stateOf 1 2 3 4 [0x31, 0xd8]).readByte (0 + k) = (encode (.xor none 3 0))[k]? := by decide

theorem witness_StepTakesTheDecodeFault :
    (stateOf 1 2 3 4 [0x90]).status = .running ∧ (stateOf 1 2 3 4 [0x90]).cursor < (stateOf 1 2 3 4 [0x90]).buf.size ∧
      decode (window (stateOf 1 2 3 4 [0x90])) = .fault 0 .unknownOpcode := by decide

theorem witness_HasMoreIffUnreadBytes :
    State.reset.buf.size = 0 ∧ hasMore (stateOf 0 0 0 0 [0x90]) = true ∧
      hasMore (advanceCursor (stateOf 0 0 0 0 [0x90]) 1) = false := by decide

/-- One byte left, none left, and a latched fault. -/
theorem witness_StepAnswersUntilTheRunIsOver :
    statusOf (step (stateOf 0 0 0 0 [0x90])) = some (.decodeFault 0 .unknownOpcode) ∧
      State.reset.status = .running ∧ State.reset.buf.size ≤ State.reset.cursor ∧
      (raiseDecode State.reset 0 .unknownOpcode).status ≠ .running := by decide

theorem witness_EveryInstructionAnswersInRunning :
    (stateOf 1 2 3 4 []).status = .running ∧ ∃ t, exec (.add none 0 0) (stateOf 1 2 3 4 []) = .next t := ⟨rfl, _, rfl⟩

theorem witness_FaultStateIsTerminal :
    Status.executeFault 0 .arithmeticOverflow ≠ .running ∧ Status.decodeFault 0 .truncatedInput ≠ .running := by decide

theorem witness_DecodeNextTouchesNoRegister :
    (∃ r i t, decodeNext (stateOf 1 2 3 4 [0x31, 0xd8]) = .decoded r i t) ∧
      ∃ t, decodeNext (stateOf 1 2 3 4 [0x31]) = .faulted t := ⟨⟨_, _, _, rfl⟩, _, rfl⟩

/-- Each reason at each of its places, with the last missing byte: opcode and operand byte missing, no opcode first and after a
prefix, an operand byte that is not direct without and with a prefix, and an immediate one byte short after a load, a prefixed
load, an accumulator opcode and an operand byte. -/
theorem witness_DecodeFaultOffsets :
    (∃ t, step (stateOf 0 0 0 0 [0x48]) = .next t ∧ t.status = .decodeFault 1 .truncatedInput) ∧
      (∃ t, step (stateOf 0 0 0 0 [0x01]) = .next t ∧ t.status = .decodeFault 1 .truncatedInput) ∧
      (∃ t, step (stateOf 0 0 0 0 [0x48, 0x81]) = .next t ∧ t.status = .decodeFault 2 .truncatedInput) ∧
      (∃ t, step (stateOf 0 0 0 0 [0x90]) = .next t ∧ t.status = .decodeFault 0 .unknownOpcode) ∧
      (∃ t, step (stateOf 0 0 0 0 [0x48, 0x90]) = .next t ∧ t.status = .decodeFault 1 .unknownOpcode) ∧
      (∃ t, step (stateOf 0 0 0 0 [0x01, 0xbf]) = .next t ∧ t.status = .decodeFault 1 .unsupportedAddressingMode) ∧
      (∃ t, step (stateOf 0 0 0 0 [0x48, 0x01, 0]) = .next t ∧ t.status = .decodeFault 2 .unsupportedAddressingMode) ∧
      (∃ t, step (stateOf 0 0 0 0 [0xb8, 1, 2, 3]) = .next t ∧ t.status = .decodeFault 1 .truncatedImmediate) ∧
      (∃ t, step (stateOf 0 0 0 0 [0x48, 0xb8, 1, 2, 3, 4, 5, 6, 7]) = .next t ∧ t.status = .decodeFault 2 .truncatedImmediate) ∧
      (∃ t, step (stateOf 0 0 0 0 [0x48, 0x05, 1, 2, 3]) = .next t ∧ t.status = .decodeFault 2 .truncatedImmediate) ∧
      (∃ t, step (stateOf 0 0 0 0 [0x81, 0xc0, 1, 2, 3]) = .next t ∧ t.status = .decodeFault 2 .truncatedImmediate) := by
  refine ⟨?_, ?_, ?_, ?_, ?_, ?_, ?_, ?_, ?_, ?_, ?_⟩ <;> exact next_of_status (by decide)

/-- A shortest and a longest instruction that complete, and one that takes an execute fault. -/
theorem witness_CountersMoveByTheLength :
    (∃ t, step (stateOf 1 2 3 4 [0x01, 0xc0]) = .next t ∧ t.status = .running) ∧
      (∃ t, step (stateOf 0 0 0 0 [0x48, 0xb8, 1, 2, 3, 4, 5, 6, 7, 8]) = .next t ∧ t.status = .running) ∧
      ∃ t, step (stateOf 0x7fffffffffffffff 0 0 0 [0x01, 0xc0]) = .next t ∧
        t.status = .executeFault 0 .arithmeticOverflow := by
  refine ⟨?_, ?_, ?_⟩ <;> exact next_of_status (by decide)

theorem witness_StepNeverWritesTheBuffer :
    ∃ t, step (stateOf 1 2 3 4 [0x01, 0xc0]) = .next t ∧ t.status = .running := next_of_status (by decide)

/-- A running state of the invariant that has a step, and states of it after each kind of fault. -/
theorem witness_StepKeepsLockstep :
    (Lockstep (stateOf 1 2 3 4 [0x01, 0xc0]) ∧ ∃ t, step (stateOf 1 2 3 4 [0x01, 0xc0]) = .next t ∧ t.status = .running) ∧
      Lockstep (raiseDecode (stateOf 1 2 3 4 [0x90]) 0 .unknownOpcode) ∧
      Lockstep (raiseExecute (advanceCursor (stateOf 1 2 3 4 [0x01, 0xc7]) 2) .invalidRegister) := by
  refine ⟨⟨⟨ofBytes_wf _, by decide, .inl ⟨rfl, rfl⟩⟩, next_of_status (by decide)⟩, ⟨ofBytes_wf _, by decide, ?_⟩,
    ⟨ofBytes_wf _, by decide, ?_⟩⟩
  · exact .inr (.inl ⟨0, .unknownOpcode, rfl, rfl, by decide, by decide⟩)
  · exact .inr (.inr ⟨⟨.invalidRegister, rfl, by decide, by decide, by decide⟩, by decide⟩)

theorem witness_EveryRunEnds :
    Lockstep (stateOf 1 2 3 4 [0x01, 0xc0, 0x90]) := ⟨ofBytes_wf _, by decide, .inl ⟨rfl, rfl⟩⟩

/-- A completed instruction, a fault, and each instruction on a register and itself, at the bound of the range where it has one. -/
theorem witness_ExecuteCommitsAllOrNothing :
    (∃ t, exec (.movMR none 0 3) (stateOf 1 2 3 4 []) = .next t ∧ t.status = .running) ∧
      (∃ t, exec (.movMR none 0 4) (stateOf 1 2 3 4 []) = .next t ∧ t.status = .executeFault 0 .invalidRegister) ∧
      regOf 0 = some .A ∧
      (∃ t, exec (.add none 0 0) (stateOf 0x3fffffffffffffff 0 0 0 []) = .next t ∧ t.status = .running) ∧
      (∃ t, exec (.sub none 0 0) (stateOf 0x8000000000000000 0 0 0 []) = .next t ∧ t.status = .running) ∧
      (∃ t, exec (.xor none 0 0) (stateOf 1 0 0 0 []) = .next t ∧ t.status = .running) ∧
      (∃ t, exec (.movMR none 0 0) (stateOf 1 0 0 0 []) = .next t ∧ t.status = .running) ∧
      ∃ t, exec (.movRM none 0 0) (stateOf 1 0 0 0 []) = .next t ∧ t.status = .running := by
  refine ⟨?_, ?_, rfl, ?_, ?_, ?_, ?_, ?_⟩ <;> exact next_of_status (by decide)

theorem witness_ExecuteFaultIsPrecise :
    ∃ t, exec (.add none 0 0) (stateOf 0x4000000000000000 0 0 0 []) = .next t ∧
      t.status = .executeFault 0 .arithmeticOverflow := next_of_status (by decide)

theorem witness_OptionalPrefixChangesOnlyThePc :
    (∃ t, exec (.add (some 0x48) 0 0) (stateOf 1 0 0 0 []) = .next t ∧ t.status = .running) ∧
      ∃ t, exec (.add (some 0x48) 0 4) (stateOf 1 0 0 0 []) = .next t ∧ t.status = .executeFault 0 .invalidRegister := by
  refine ⟨?_, ?_⟩ <;> exact next_of_status (by decide)

theorem witness_LoadiALoadsTheSignExtendedImmediate :
    (stateOf 1 2 3 4 []).status = .running := rfl

/-- The prefix byte 0x48, a running state, and tails of 0 and 3 bytes. -/
theorem witness_Loadi64ALoadsTheRawImmediate :
    isPrefix 0x48 = true ∧ (stateOf 1 2 3 4 []).status = .running ∧ ([] : List Byte).length < 4 ∧
      ([1, 2, 3] : List Byte).length < 4 := by decide

theorem witness_LoadImmediate32Completes :
    (stateOf 1 2 3 4 []).status = .running := rfl

theorem witness_LoadImmediate64Completes :
    (stateOf 1 2 3 4 []).status = .running := rfl

/-- Register codes at both ends, 0 and 3. -/
theorem witness_MovesComplete :
    (stateOf 1 2 3 4 []).status = .running ∧ regOf 0 = some .A ∧ regOf 3 = some .B := by decide

/-- A sum that is `MAX64`, and one that is `MIN64`. -/
theorem witness_AddCompletes :
    regOf 0 = some .A ∧ regOf 3 = some .B ∧
      (stateOf 0x7ffffffffffffffe 1 0 0 []).status = .running ∧
      ((stateOf 0x7ffffffffffffffe 1 0 0 []).reg .A).toInt + ((stateOf 0x7ffffffffffffffe 1 0 0 []).reg .B).toInt = max64 ∧
      ((stateOf 0x8000000000000001 0xffffffffffffffff 0 0 []).reg .A).toInt
        + ((stateOf 0x8000000000000001 0xffffffffffffffff 0 0 []).reg .B).toInt = min64 := by decide

/-- A difference that is `MAX64`, and one that is `MIN64`. -/
theorem witness_SubCompletes :
    regOf 0 = some .A ∧ regOf 3 = some .B ∧
      (stateOf 0xffffffffffffffff 0x8000000000000000 0 0 []).status = .running ∧
      ((stateOf 0xffffffffffffffff 0x8000000000000000 0 0 []).reg .A).toInt
        - ((stateOf 0xffffffffffffffff 0x8000000000000000 0 0 []).reg .B).toInt = max64 ∧
      ((stateOf 0x8000000000000001 1 0 0 []).reg .A).toInt - ((stateOf 0x8000000000000001 1 0 0 []).reg .B).toInt = min64 := by decide

theorem witness_XorCompletes :
    (stateOf 1 2 3 4 []).status = .running ∧ regOf 2 = some .D ∧ regOf 3 = some .B := by decide

/-- The greatest sum and the least difference in the range, on register B. -/
theorem witness_AddiSubiComplete :
    regOf 3 = some .B ∧ (stateOf 0 0x7fffffff80000000 0 0 []).status = .running ∧
      ((stateOf 0 0x7fffffff80000000 0 0 []).reg .B).toInt + (0x7fffffff#32).toInt = max64 ∧
      ((stateOf 0 0x800000007fffffff 0 0 []).reg .B).toInt - (0x7fffffff#32).toInt = min64 := by decide

/-- The least sum and the greatest difference in the range. -/
theorem witness_AddaSubaComplete :
    (stateOf 0x8000000080000000 0 0 0 []).status = .running ∧
      ((stateOf 0x8000000080000000 0 0 0 []).reg .A).toInt + (0x80000000#32).toInt = min64 ∧
      ((stateOf 0x7fffffff7fffffff 0 0 0 []).reg .A).toInt - (0x80000000#32).toInt = max64 := by decide

theorem witness_StoreiCompletes :
    (stateOf 1 2 3 4 []).status = .running ∧ regOf 3 = some .B := by decide

theorem witness_ReservedGroup1Faults :
    (stateOf 1 2 3 4 []).status = .running ∧ Instr.reserved81s1 none 4 0 ∈
      [Instr.reserved81s1 none 4 0, .reserved81s2 none 4 0, .reserved81s3 none 4 0, .reserved81s4 none 4 0,
        .reserved81s6 none 4 0, .reserved81s7 none 4 0] := by decide

theorem witness_ReservedStoreFaults :
    (stateOf 1 2 3 4 []).status = .running ∧ Instr.reservedC7s7 none 7 0 ∈
      [Instr.reservedC7s1 none 7 0, .reservedC7s2 none 7 0, .reservedC7s3 none 7 0, .reservedC7s4 none 7 0,
        .reservedC7s5 none 7 0, .reservedC7s6 none 7 0, .reservedC7s7 none 7 0] := by decide

theorem witness_PrefixWithoutOpcodeFaults :
    (stateOf 1 2 3 4 [0x48, 0x90]).status = .running := rfl

/-- The codes 3 and 4 on either side of the bound, and one invalid field of two. -/
theorem witness_InvalidRegisterFaults :
    (stateOf 1 2 3 4 []).status = .running ∧ regOf 3 = some .B ∧ regOf 4 = none ∧ 4 ≤ (4#3).toNat ∧ ¬ 4 ≤ (3#3).toNat ∧
      statusOf (exec (.add none 4 0) (stateOf 1 2 3 4 [])) = some (.executeFault 0 .invalidRegister) ∧
      statusOf (exec (.add none 0 4) (stateOf 1 2 3 4 [])) = some (.executeFault 0 .invalidRegister) := by decide

/-- One past the range on both sides, for each shape; and an overflow that is taken. -/
theorem witness_OverflowFaultsAndNeverWraps :
    (stateOf 0x7fffffffffffffff 1 0x8000000000000000 0 []).status = .running ∧ regOf 0 = some .A ∧ regOf 1 = some .C ∧
      regOf 3 = some .B ∧ (0x7fffffffffffffff#64).toInt + (1#64).toInt = max64 + 1 ∧
      (0x8000000000000000#64).toInt - (1#64).toInt = min64 - 1 ∧
      (0x8000000000000000#64).toInt + (0xffffffff#32).toInt = min64 - 1 ∧
      (0x7fffffffffffffff#64).toInt - (0xffffffff#32).toInt = max64 + 1 ∧
      statusOf (exec (.adda none 1) (stateOf 0x7fffffffffffffff 1 0x8000000000000000 0 []))
        = some (.executeFault 0 .arithmeticOverflow) := by decide

/-- Results that exist at the ends of the range, and the two that do not just past them. -/
theorem witness_AddIsExactAndMatchesTheBitFormula :
    aluAdd 0x7ffffffffffffffe 1 = some 0x7fffffffffffffff ∧ aluAdd 0x7fffffffffffffff 1 = none ∧
      aluAdd 0x8000000000000001 0xffffffffffffffff = some 0x8000000000000000 ∧
      aluAdd 0x8000000000000000 0xffffffffffffffff = none := by decide

theorem witness_SubIsExactAndMatchesTheBitFormula :
    aluSub 0xffffffffffffffff 0x8000000000000000 = some 0x7fffffffffffffff ∧ aluSub 0 0x8000000000000000 = none ∧
      aluSub 0x8000000000000001 1 = some 0x8000000000000000 ∧ aluSub 0x8000000000000000 1 = none := by decide

/-- The four sides of the bounds 2^62 and -2^62, each with what the add answers there. -/
theorem witness_DoublingFaultsExactlyOutsideTheRange :
    (stateOf 0x4000000000000000 0 0 0 []).status = .running ∧ regOf 0 = some .A ∧
      (0x4000000000000000#64).toInt = 2 ^ 62 ∧ (0xc000000000000000#64).toInt = -(2 ^ 62) ∧
      statusOf (exec (.add none 0 0) (stateOf 0x4000000000000000 0 0 0 [])) = some (.executeFault 0 .arithmeticOverflow) ∧
      statusOf (exec (.add none 0 0) (stateOf 0x3fffffffffffffff 0 0 0 [])) = some .running ∧
      statusOf (exec (.add none 0 0) (stateOf 0xc000000000000000 0 0 0 [])) = some .running ∧
      statusOf (exec (.add none 0 0) (stateOf 0xbfffffffffffffff 0 0 0 [])) = some (.executeFault 0 .arithmeticOverflow) := by decide

theorem witness_SelfSubtractAndSelfXorClear :
    (stateOf 0x8000000000000000 2 3 4 []).status = .running ∧ regOf 0 = some .A := by decide

theorem witness_SubtractingMin64FaultsFromNonNegative :
    (stateOf 0 0x8000000000000000 3 4 []).status = .running ∧ regOf 3 = some .B ∧ regOf 0 = some .A ∧
      ((stateOf 0 0x8000000000000000 3 4 []).reg .B).toInt = min64 ∧ 0 ≤ ((stateOf 0 0x8000000000000000 3 4 []).reg .A).toInt ∧
      ((stateOf 0xffffffffffffffff 0x8000000000000000 3 4 []).reg .A).toInt < 0 := by decide

theorem witness_RecordExecutesAsItsInstruction :
    (Instr.add (some 0x48) 1 0).record =
      some { opcode := 0x01, m := some 0xc8, imm32 := none, imm64 := none, length := 3 } := by decide

theorem witness_UnmappedRecordFaultsAndNoStepDoes :
    (stateOf 1 2 3 4 []).status = .running ∧ opcodeOf 0x90 = none ∧
      ∃ t, step (stateOf 1 2 3 4 [0x90]) = .next t ∧ t.status = .decodeFault 0 .unknownOpcode := ⟨rfl, by decide, next_of_status (by decide)⟩

/-- Records of no instruction: C7 without an immediate, a length that no form of ADD has, a stray immediate; and a record for each
of the spec's examples, with the last operand byte below 0xC0. -/
theorem witness_MalformedRecordsAreRefused :
    (stateOf 1 2 3 4 []).status = .running ∧ modField 0xbf ≠ modDirect ∧
      (opcodeOf 0xc7 ≠ none ∧ ∀ i : Instr, i.wf = true → i.record ≠ some ⟨0xc7, some 0xc0, none, none, 6⟩) ∧
      (opcodeOf 0x01 ≠ none ∧ ∀ i : Instr, i.wf = true → i.record ≠ some ⟨0x01, some 0xc0, none, none, 4⟩) ∧
      (opcodeOf 0x2d ≠ none ∧ ∀ i : Instr, i.wf = true → i.record ≠ some ⟨0x2d, none, some 1, some 1, 5⟩) ∧
      Record.reading ⟨0x81, some 0xc0, none, none, 6⟩ = .malformed ∧ Record.reading ⟨0x89, none, none, none, 2⟩ = .malformed ∧
      Record.reading ⟨0xb8, none, none, none, 5⟩ = .malformed ∧ Record.reading ⟨0xb8, none, some 1, some 1, 5⟩ = .malformed ∧
      Record.reading ⟨0x89, some 0xbf, none, none, 2⟩ = .malformed := by
  have len : ∀ (i : Instr) (m : Byte), i.record ≠ some ⟨0x01, some m, none, none, 4⟩ := by
    intro i m h
    have hl := record_length h
    cases i <;> simp [Instr.length, lengthWith] at hl <;> split at hl <;> omega
  refine ⟨rfl, by decide, ⟨by decide, ?_⟩, ⟨by decide, fun i _ => len i 0xc0⟩, ⟨by decide, ?_⟩, by decide, by decide, by decide,
    by decide, by decide⟩
  · intro i _ h
    cases i <;> simp [Instr.record, recordOI32, recordOI64, recordOM, recordOMI, recordAI, Opcode.byte] at h
  · intro i _ h
    cases i <;> simp [Instr.record, recordOI32, recordOI64, recordOM, recordOMI, recordAI] at h

theorem witness_RegistersAreIndependent :
    Reg.B ≠ Reg.A := by decide

/-- Values at both ends of the 32-bit range, and one past them. -/
theorem witness_ResultIsAOrOutOfRange :
    result (stateOf 0x7fffffff 0 0 0 []) = .value 0x7fffffff ∧ result (stateOf 0x80000000 0 0 0 []) = .outOfRange ∧
      (stateOf 5 0 0 0 []).reg .A = (stateOf 5 1 2 3 [0x90]).reg .A := by decide

theorem witness_HexTextIsRejectedExactlyWhenMalformed :
    loadHex "b8 2A".toList = some [0xb8, 0x2a] := by decide

/-- A record, a fault of the decoder, and a prefix before a byte that is no opcode. -/
theorem witness_DecodeNextAnswersARecordOrAFault :
    (stateOf 1 2 3 4 [0x48, 0x90]).status = .running ∧
      (∃ r i t, decodeNext (stateOf 1 2 3 4 [0x48, 0x01, 0xc8]) = .decoded r i t) ∧
      (∃ t, decodeNext (stateOf 1 2 3 4 [0x89, 0x83]) = .faulted t) ∧
      (stateOf 1 2 3 4 [0x48, 0x90]).readByte 0 = some 0x48 ∧ isPrefix 0x48 = true ∧
      (stateOf 1 2 3 4 [0x48, 0x90]).readByte 1 = some 0x90 ∧ opcodeOf 0x90 = none := ⟨rfl, ⟨_, _, _, rfl⟩, ⟨_, rfl⟩, by decide, by decide, by decide, by decide⟩

end Sys2Proof.Tests
end

section
/-! SUPPORT. The instructions by format (30_encoding.md R61, R71): each is the reading of an opcode with its operand byte and
immediate, so that a fact about every instruction is one about the five formats and `w`, the widening byte (a member of
`PREFIX_SET`, R63) before a byte that is no opcode. -/

namespace Sys2Proof

/-- The format of R61 that an instruction is written in; `w` has none (log 2). -/
inductive Instr.ByFormat : Instr → Prop where
  | oi32 (d : Reg) (v : BitVec 32) : ByFormat (loadiOf d v)
  | oi64 (p : Byte) (d : Reg) (v : BitVec 64) : ByFormat (loadi64Of p d v)
  | om (k : OMOp) (pre : Option Byte) (m : Byte) (hm : modField m = modDirect) : ByFormat (omInstr k pre m)
  | omi (k : OMIOp) (pre : Option Byte) (m : Byte) (v : BitVec 32) (hm : modField m = modDirect) :
      ByFormat (omiInstr k pre m v)
  | ai (k : AIOp) (pre : Option Byte) (v : BitVec 32) : ByFormat (aiInstr k pre v)
  | w (p nxt : Byte) : ByFormat (.w p nxt)

/-- An operand byte made of two fields gives its format `OM` opcode those fields. -/
theorem Instr.ByFormat.of_om {i : Instr} (k : OMOp) (pre : Option Byte) (reg rm : BitVec 3)
    (h : omInstr k pre (operandByte reg rm) = i) : i.ByFormat :=
  h ▸ .om k pre _ (modField_operandByte reg rm)

/-- An operand byte made of two fields gives its format `OMI` opcode those fields. -/
theorem Instr.ByFormat.of_omi {i : Instr} (k : OMIOp) (pre : Option Byte) (sel rm : BitVec 3) (v : BitVec 32)
    (h : omiInstr k pre (operandByte sel rm) v = i) : i.ByFormat :=
  h ▸ .omi k pre _ v (modField_operandByte sel rm)

/-- Every instruction is of one of the five formats, or `w`. -/
theorem Instr.byFormat (i : Instr) : i.ByFormat := by
  cases i with
  | w p nxt => exact .w p nxt
  | loadiA v => exact .oi32 .A v
  | loadiC v => exact .oi32 .C v
  | loadiD v => exact .oi32 .D v
  | loadiB v => exact .oi32 .B v
  | loadi64A p v => exact .oi64 p .A v
  | loadi64C p v => exact .oi64 p .C v
  | loadi64D p v => exact .oi64 p .D v
  | loadi64B p v => exact .oi64 p .B v
  | movMR pre reg rm => exact .of_om .movMR pre reg rm (by simp [omInstr])
  | movRM pre reg rm => exact .of_om .movRM pre reg rm (by simp [omInstr])
  | add pre reg rm => exact .of_om .add pre reg rm (by simp [omInstr])
  | sub pre reg rm => exact .of_om .sub pre reg rm (by simp [omInstr])
  | xor pre reg rm => exact .of_om .xor pre reg rm (by simp [omInstr])
  | addi pre rm v => exact .of_omi .group1 pre 0 rm v (by simp [omiInstr, group1Instr])
  | reserved81s1 pre rm v => exact .of_omi .group1 pre 1 rm v (by simp [omiInstr, group1Instr])
  | reserved81s2 pre rm v => exact .of_omi .group1 pre 2 rm v (by simp [omiInstr, group1Instr])
  | reserved81s3 pre rm v => exact .of_omi .group1 pre 3 rm v (by simp [omiInstr, group1Instr])
  | reserved81s4 pre rm v => exact .of_omi .group1 pre 4 rm v (by simp [omiInstr, group1Instr])
  | subi pre rm v => exact .of_omi .group1 pre 5 rm v (by simp [omiInstr, group1Instr])
  | reserved81s6 pre rm v => exact .of_omi .group1 pre 6 rm v (by simp [omiInstr, group1Instr])
  | reserved81s7 pre rm v => exact .of_omi .group1 pre 7 rm v (by simp [omiInstr, group1Instr])
  | storei pre rm v => exact .of_omi .store pre 0 rm v (by simp [omiInstr, storeInstr])
  | reservedC7s1 pre rm v => exact .of_omi .store pre 1 rm v (by simp [omiInstr, storeInstr])
  | reservedC7s2 pre rm v => exact .of_omi .store pre 2 rm v (by simp [omiInstr, storeInstr])
  | reservedC7s3 pre rm v => exact .of_omi .store pre 3 rm v (by simp [omiInstr, storeInstr])
  | reservedC7s4 pre rm v => exact .of_omi .store pre 4 rm v (by simp [omiInstr, storeInstr])
  | reservedC7s5 pre rm v => exact .of_omi .store pre 5 rm v (by simp [omiInstr, storeInstr])
  | reservedC7s6 pre rm v => exact .of_omi .store pre 6 rm v (by simp [omiInstr, storeInstr])
  | reservedC7s7 pre rm v => exact .of_omi .store pre 7 rm v (by simp [omiInstr, storeInstr])
  | adda pre v => exact .ai .adda pre v
  | suba pre v => exact .ai .suba pre v

/-! ## The bytes, the length and the record of each format -/

/-- A 3-bit field holds one of eight codes. -/
theorem field_cases (c : BitVec 3) : c = 0 ∨ c = 1 ∨ c = 2 ∨ c = 3 ∨ c = 4 ∨ c = 5 ∨ c = 6 ∨ c = 7 := by
  revert c; decide

@[simp] theorem encode_loadiOf (d : Reg) (v : BitVec 32) : encode (loadiOf d v) = encodeOI32 d v := by
  cases d <;> rfl

@[simp] theorem encode_loadi64Of (p : Byte) (d : Reg) (v : BitVec 64) : encode (loadi64Of p d v) = encodeOI64 p d v := by
  cases d <;> rfl

@[simp] theorem encode_omInstr (k : OMOp) (pre : Option Byte) (m : Byte) :
    encode (omInstr k pre m) = encodeOM pre k (regField m) (rmField m) := by
  cases k <;> rfl

@[simp] theorem encode_omiInstr (k : OMIOp) (pre : Option Byte) (m : Byte) (v : BitVec 32) :
    encode (omiInstr k pre m v) = encodeOMI pre k (regField m) (rmField m) v := by
  cases k <;> rcases field_cases (regField m) with h | h | h | h | h | h | h | h <;>
    simp [omiInstr, group1Instr, storeInstr, h, encode]

@[simp] theorem encode_aiInstr (k : AIOp) (pre : Option Byte) (v : BitVec 32) :
    encode (aiInstr k pre v) = encodeAI pre k v := by
  cases k <;> rfl

@[simp] theorem length_loadiOf (d : Reg) (v : BitVec 32) : (loadiOf d v).length = 5 := by
  cases d <;> rfl

@[simp] theorem length_loadi64Of (p : Byte) (d : Reg) (v : BitVec 64) : (loadi64Of p d v).length = 10 := by
  cases d <;> rfl

@[simp] theorem length_omInstr (k : OMOp) (pre : Option Byte) (m : Byte) :
    (omInstr k pre m).length = lengthWith pre 2 := by
  cases k <;> rfl

@[simp] theorem length_omiInstr (k : OMIOp) (pre : Option Byte) (m : Byte) (v : BitVec 32) :
    (omiInstr k pre m v).length = lengthWith pre 6 := by
  cases k <;> rcases field_cases (regField m) with h | h | h | h | h | h | h | h <;>
    simp [omiInstr, group1Instr, storeInstr, h, Instr.length]

@[simp] theorem length_aiInstr (k : AIOp) (pre : Option Byte) (v : BitVec 32) :
    (aiInstr k pre v).length = lengthWith pre 5 := by
  cases k <;> rfl

@[simp] theorem record_loadiOf (d : Reg) (v : BitVec 32) : (loadiOf d v).record = some (recordOI32 d v 5) := by
  cases d <;> rfl

@[simp] theorem record_loadi64Of (p : Byte) (d : Reg) (v : BitVec 64) :
    (loadi64Of p d v).record = some (recordOI64 d v 10) := by
  cases d <;> rfl

@[simp] theorem record_omInstr (k : OMOp) (pre : Option Byte) (m : Byte) :
    (omInstr k pre m).record = some (recordOM k (regField m) (rmField m) (lengthWith pre 2)) := by
  cases k <;> rfl

@[simp] theorem record_omiInstr (k : OMIOp) (pre : Option Byte) (m : Byte) (v : BitVec 32) :
    (omiInstr k pre m v).record = some (recordOMI k (regField m) (rmField m) v (lengthWith pre 6)) := by
  cases k <;> rcases field_cases (regField m) with h | h | h | h | h | h | h | h <;>
    simp [omiInstr, group1Instr, storeInstr, h, Instr.record, Instr.length]

@[simp] theorem record_aiInstr (k : AIOp) (pre : Option Byte) (v : BitVec 32) :
    (aiInstr k pre v).record = some (recordAI k v (lengthWith pre 5)) := by
  cases k <;> rfl

@[simp] theorem wf_loadiOf (d : Reg) (v : BitVec 32) : (loadiOf d v).wf = true := by
  cases d <;> rfl

@[simp] theorem wf_loadi64Of (p : Byte) (d : Reg) (v : BitVec 64) : (loadi64Of p d v).wf = isPrefix p := by
  cases d <;> rfl

@[simp] theorem wf_omInstr (k : OMOp) (pre : Option Byte) (m : Byte) : (omInstr k pre m).wf = prefixOk pre := by
  cases k <;> rfl

@[simp] theorem wf_omiInstr (k : OMIOp) (pre : Option Byte) (m : Byte) (v : BitVec 32) :
    (omiInstr k pre m v).wf = prefixOk pre := by
  cases k <;> rcases field_cases (regField m) with h | h | h | h | h | h | h | h <;>
    simp [omiInstr, group1Instr, storeInstr, h, Instr.wf]

@[simp] theorem wf_aiInstr (k : AIOp) (pre : Option Byte) (v : BitVec 32) : (aiInstr k pre v).wf = prefixOk pre := by
  cases k <;> rfl

/-- A form with an optional widening byte has its base length or one more (R62). -/
theorem lengthWith_cases (pre : Option Byte) (base : Nat) :
    lengthWith pre base = base ∨ lengthWith pre base = base + 1 := by
  cases pre
  · exact .inl rfl
  · exact .inr rfl

/-- An instruction with a record has one of the lengths of R62. -/
theorem Instr.length_mem {i : Instr} {r : Record} (hr : i.record = some r) : i.length ∈ [2, 3, 5, 6, 7, 10] := by
  cases i.byFormat with
  | oi32 d v => simp
  | oi64 p d v => simp
  | om k pre m hm => rcases lengthWith_cases pre 2 with h | h <;> simp [h]
  | omi k pre m v hm => rcases lengthWith_cases pre 6 with h | h <;> simp [h]
  | ai k pre v => rcases lengthWith_cases pre 5 with h | h <;> simp [h]
  | w p nxt => cases hr

/-- An instruction with a record is as long as its encoding (R62, R97). -/
theorem Instr.length_eq_encode_length {i : Instr} {r : Record} (hr : i.record = some r) : i.length = (encode i).length := by
  cases i.byFormat with
  | oi32 d v => simp [encodeOI32]
  | oi64 p d v => simp [encodeOI64]
  | om k pre m hm => simp [Laws.encodeOM_size]
  | omi k pre m v hm => simp [Laws.encodeOMI_size]
  | ai k pre v => simp [Laws.encodeAI_size]
  | w p nxt => cases hr

/-! ## What decodes -/

/-- From the opcode on, what decodes is well formed and was encoded, its optional widening byte before it. -/
theorem decodeOpcode_instr {pre : Option Byte} {p : Nat} {cs : List Byte} {i : Instr} (hp : prefixOk pre = true)
    (h : decodeOpcode pre p cs = .instr i) : i.wf = true ∧ ∃ rest, pre.toList ++ cs = encode i ++ rest := by
  cases cs with
  | nil => cases h
  | cons b bs =>
    cases ho : opcodeOf b with
    | none =>
      cases pre with
      | none => simp [decodeOpcode, ho] at h
      | some q =>
        simp only [decodeOpcode, ho, Decoded.instr.injEq] at h
        subst h
        exact ⟨by simpa [Instr.wf, ho, prefixOk] using hp, bs, rfl⟩
    | some o =>
      obtain rfl := byte_of_opcodeOf ho
      rw [decodeOpcode_byte] at h
      cases o with
      | oi d =>
        cases pre with
        | none =>
          cases hv : readImm32 bs with
          | none => simp [decodeOI, hv] at h
          | some v =>
            obtain ⟨rest, rfl⟩ := readImm32_some hv
            simp only [decodeOI, hv, Decoded.instr.injEq] at h
            subst h
            exact ⟨by simp, rest, by simp [encodeOI32]⟩
        | some q =>
          cases hv : readImm64 bs with
          | none => simp [decodeOI, hv] at h
          | some v =>
            obtain ⟨rest, rfl⟩ := readImm64_some hv
            simp only [decodeOI, hv, Decoded.instr.injEq] at h
            subst h
            exact ⟨by simpa [prefixOk] using hp, rest, by simp [encodeOI64]⟩
      | om k =>
        cases bs with
        | nil => cases h
        | cons m rest =>
          simp only [decodeOM] at h
          split at h
          · next hm =>
            cases h
            exact ⟨by simpa using hp, rest, by simp [encodeOM, operandByte_fields m hm]⟩
          · cases h
      | omi k =>
        cases bs with
        | nil => cases h
        | cons m tail =>
          simp only [decodeOMI] at h
          split at h
          · next hm =>
            cases hv : readImm32 tail with
            | none => simp [hv] at h
            | some v =>
              obtain ⟨rest, rfl⟩ := readImm32_some hv
              simp only [hv, Decoded.instr.injEq] at h
              subst h
              exact ⟨by simpa using hp, rest, by simp [encodeOMI, operandByte_fields m hm]⟩
          · cases h
      | ai k =>
        cases hv : readImm32 bs with
        | none => simp [decodeAI, hv] at h
        | some v =>
          obtain ⟨rest, rfl⟩ := readImm32_some hv
          simp only [decodeAI, hv, Decoded.instr.injEq] at h
          subst h
          exact ⟨by simpa using hp, rest, by simp [encodeAI]⟩

/-- What decodes is well formed, and the bytes begin with its encoding (R60, R98). -/
theorem decode_instr {bs : List Byte} {i : Instr} (h : decode bs = .instr i) :
    i.wf = true ∧ ∃ rest, bs = encode i ++ rest := by
  cases bs with
  | nil => cases h
  | cons b cs =>
    simp only [decode] at h
    split at h
    · next hb => exact decodeOpcode_instr (pre := some b) (by simpa [prefixOk] using hb) h
    · exact decodeOpcode_instr (pre := none) rfl h

end Sys2Proof
end

section
/-! SUPPORT. What an EXECUTE and a step can do when they answer a next state, each said once for every instruction. -/

namespace Sys2Proof.Machine

/-- `t` is what EXECUTE of a form of `len` bytes with destination `d` may leave of `s`: the atomic commit of R111, or an
execute fault at `pc`, of which `UnknownOpcode` is none (R122). -/
def Executed (d : Option Reg) (len : Nat) (s t : State) : Prop :=
  (∃ r v, d = some r ∧ t = committed s r v len) ∨ ∃ reason, t = raiseExecute s reason ∧ reason ≠ .unknownOpcode

theorem loadRegister_executed {s t : State} {d : Reg} {v : Word} {len : Nat} (h : loadRegister s d v len = .next t) :
    Executed (some d) len s t :=
  .inl ⟨d, v, rfl, (loadRegister_next h).2⟩

theorem plainOM_executed {s t : State} {a b : BitVec 3} {len : Nat} {f : Word → Word → Word}
    (h : plainOM s a b len f = .next t) : Executed (regOf a) len s t := by
  rcases (plainOM_next h).2 with ⟨d, r, hd, -, ht⟩ | ⟨-, ht⟩
  · exact .inl ⟨d, _, hd, ht⟩
  · exact .inr ⟨_, ht, nofun⟩

theorem checkedOM_executed {s t : State} {a b : BitVec 3} {len : Nat} {f : Word → Word → Option Word}
    (h : checkedOM s a b len f = .next t) : Executed (regOf a) len s t := by
  rcases (checkedOM_next h).2 with ⟨d, r, w, hd, -, -, ht⟩ | ⟨d, r, -, -, -, ht⟩ | ⟨-, ht⟩
  · exact .inl ⟨d, w, hd, ht⟩
  · exact .inr ⟨_, ht, nofun⟩
  · exact .inr ⟨_, ht, nofun⟩

theorem checkedImm_executed {s t : State} {d : Reg} {imm : BitVec 32} {len : Nat} {f : Word → Word → Option Word}
    (h : checkedImm s d imm len f = .next t) : Executed (some d) len s t := by
  rcases checkedImm_next h with ⟨w, -, ht⟩ | ⟨-, ht⟩
  · exact .inl ⟨d, w, rfl, ht⟩
  · exact .inr ⟨_, ht, nofun⟩

/-- A register field before an operation on the register it names: `InvalidRegister` is the one outcome more (R120). -/
theorem withRegister_executed {s t : State} {c : BitVec 3} {k : Reg → Outcome} {len : Nat}
    (hk : ∀ r, k r = .next t → Executed (some r) len s t) (h : withRegister s c k = .next t) :
    Executed (regOf c) len s t := by
  rcases withRegister_next h with ⟨r, hr, h⟩ | ⟨-, ht⟩
  · exact hr ▸ hk r h
  · exact .inr ⟨_, ht, nofun⟩

theorem unsupportedSubOpcode_executed {s t : State} {len : Nat} (h : unsupportedSubOpcode s = .next t) :
    Executed none len s t :=
  .inr ⟨_, (unsupportedSubOpcode_next h).2, nofun⟩

/-- Everything an EXECUTE of an instruction with a record can do: complete with its destination written and `pc` advanced by its
length, or take an execute fault at `pc` (R111, R223). -/
theorem exec_next {i : Instr} {r : Record} {s t : State} (hr : i.record = some r) (h : exec i s = .next t) :
    Executed (destination i) i.length s t := by
  cases i with
  | w p nxt => cases hr
  | loadiA | loadiC | loadiD | loadiB | loadi64A | loadi64C | loadi64D | loadi64B => exact loadRegister_executed h
  | movMR | movRM => exact plainOM_executed (f := fun _ b => aluPass b) h
  | xor => exact plainOM_executed h
  | add | sub => exact checkedOM_executed h
  | addi | subi => exact withRegister_executed (fun _ => checkedImm_executed) (whenRunning_next h).2
  | adda | suba => exact checkedImm_executed (whenRunning_next h).2
  | storei =>
    exact withRegister_executed (fun d hd => .inl ⟨d, _, rfl, commit_next hd⟩) (whenRunning_next h).2
  | reserved81s1 | reserved81s2 | reserved81s3 | reserved81s4 | reserved81s6 | reserved81s7 | reservedC7s1 | reservedC7s2
  | reservedC7s3 | reservedC7s4 | reservedC7s5 | reservedC7s6 | reservedC7s7 => exact unsupportedSubOpcode_executed h

/-- An EXECUTE of `w` takes the decode fault that DECODE_NEXT has raised (log 2). -/
theorem exec_w_next {p nxt : Byte} {s t : State} (h : exec (.w p nxt) s = .next t) : t = raisePrefix s := by
  have := (whenRunning_next h).2
  cases this
  rfl

/-- Everything a step that answers a next state can do: execute an instruction that has a record, after the cursor moved past its
bytes, or take a decode fault with nothing else changed (R98, R200). -/
theorem step_next_cases {s t : State} (h : step s = .next t) :
    (∃ i r, decode (window s) = .instr i ∧ i.record = some r ∧
        Executed (destination i) i.length (advanceCursor s i.length) t) ∨
      ∃ off reason, t = raiseDecode s off reason := by
  obtain ⟨-, -, ⟨i, hd, hx⟩ | ⟨off, reason, -, ht⟩⟩ := step_next h
  · cases hr : i.record with
    | some r => exact .inl ⟨i, r, hd, hr, exec_next hr hx⟩
    | none =>
      obtain ⟨p, nxt, rfl⟩ := record_eq_none.1 hr
      exact .inr ⟨_, _, exec_w_next hx⟩
  · exact .inr ⟨_, _, ht⟩

/-- The bytes of a decoded instruction lie inside the buffer (R43, R98). -/
theorem decode_window_fits {s : State} {i : Instr} (hc : s.cursor < s.buf.size) (hd : decode (window s) = .instr i) :
    s.cursor + (encode i).length ≤ s.buf.size := by
  obtain ⟨-, rest, hw⟩ := decode_instr hd
  have hlen : min maxLength (s.buf.size - s.cursor) = (encode i).length + rest.length := by
    rw [← window_length, hw, List.length_append]
  omega

end Sys2Proof.Machine
end

section
/-! SUPPORT. EXECUTE of a record: the record of an instruction is read back as that instruction, up to the value of its
widening byte, which no meaning looks at (10_state.md R30; 41_execute_common.md R112). -/

namespace Sys2Proof

/-- The optional widening byte as it is read back from a record: present or not, its value not kept (R30). -/
def readBackPrefix (pre : Option Byte) : Option Byte := pre.map fun _ => shownPrefix

@[simp] theorem lengthWith_readBackPrefix (pre : Option Byte) (base : Nat) :
    lengthWith (readBackPrefix pre) base = lengthWith pre base := by
  cases pre <;> rfl

/-- A length tells whether the optional widening byte was there. -/
@[simp] theorem prefixOfLength_lengthWith (base : Nat) (pre : Option Byte) :
    prefixOfLength base (lengthWith pre base) = some (readBackPrefix pre) := by
  cases pre <;> simp [prefixOfLength, lengthWith, readBackPrefix]

@[simp] theorem reading_recordOI32 (d : Reg) (v : BitVec 32) : (recordOI32 d v 5).reading = .instr (loadiOf d v) := by
  simp [Record.reading, recordOI32]

@[simp] theorem reading_recordOI64 (d : Reg) (v : BitVec 64) :
    (recordOI64 d v 10).reading = .instr (loadi64Of shownPrefix d v) := by
  simp [Record.reading, recordOI64]

@[simp] theorem reading_recordOM (k : OMOp) (pre : Option Byte) (reg rm : BitVec 3) :
    (recordOM k reg rm (lengthWith pre 2)).reading = .instr (omInstr k (readBackPrefix pre) (operandByte reg rm)) := by
  simp [Record.reading, recordOM]

@[simp] theorem reading_recordOMI (k : OMIOp) (pre : Option Byte) (sel rm : BitVec 3) (v : BitVec 32) :
    (recordOMI k sel rm v (lengthWith pre 6)).reading =
      .instr (omiInstr k (readBackPrefix pre) (operandByte sel rm) v) := by
  simp [Record.reading, recordOMI]

@[simp] theorem reading_recordAI (k : AIOp) (pre : Option Byte) (v : BitVec 32) :
    (recordAI k v (lengthWith pre 5)).reading = .instr (aiInstr k (readBackPrefix pre) v) := by
  simp [Record.reading, recordAI]

end Sys2Proof

namespace Sys2Proof.Machine

/-- No load looks at the value of its widening byte. -/
theorem exec_loadi64Of_congr (p q : Byte) (d : Reg) (v : BitVec 64) (s : State) :
    exec (loadi64Of p d v) s = exec (loadi64Of q d v) s := by
  cases d <;> rfl

theorem exec_omInstr_readBackPrefix (k : OMOp) (pre : Option Byte) (m : Byte) (s : State) :
    exec (omInstr k (readBackPrefix pre) m) s = exec (omInstr k pre m) s := by
  cases k <;> simp [omInstr, exec, execMovMR, execMovRM, execAdd, execSub, execXor]

theorem exec_omiInstr_readBackPrefix (k : OMIOp) (pre : Option Byte) (m : Byte) (v : BitVec 32) (s : State) :
    exec (omiInstr k (readBackPrefix pre) m v) s = exec (omiInstr k pre m v) s := by
  cases pre with
  | none => rfl
  | some p =>
    cases k <;> rcases field_cases (regField m) with h | h | h | h | h | h | h | h <;>
      simp only [omiInstr, group1Instr, storeInstr, h] <;> rfl

theorem exec_aiInstr_readBackPrefix (k : AIOp) (pre : Option Byte) (v : BitVec 32) (s : State) :
    exec (aiInstr k (readBackPrefix pre) v) s = exec (aiInstr k pre v) s := by
  cases k <;> simp [aiInstr, exec, execAdda, execSuba]

/-- The record of an instruction is read as one that every state executes as that instruction (R30, R112). -/
theorem reading_of_record {i : Instr} {r : Record} (hr : i.record = some r) :
    ∃ j, r.reading = .instr j ∧ ∀ s, exec j s = exec i s := by
  cases i.byFormat with
  | oi32 d v =>
    cases (record_loadiOf d v).symm.trans hr
    exact ⟨_, reading_recordOI32 d v, fun _ => rfl⟩
  | oi64 p d v =>
    cases (record_loadi64Of p d v).symm.trans hr
    exact ⟨_, reading_recordOI64 d v, exec_loadi64Of_congr _ p d v⟩
  | om k pre m hm =>
    cases (record_omInstr k pre m).symm.trans hr
    refine ⟨_, reading_recordOM k pre _ _, ?_⟩
    rw [operandByte_fields m hm]
    exact exec_omInstr_readBackPrefix k pre m
  | omi k pre m v hm =>
    cases (record_omiInstr k pre m v).symm.trans hr
    refine ⟨_, reading_recordOMI k pre _ _ v, ?_⟩
    rw [operandByte_fields m hm]
    exact exec_omiInstr_readBackPrefix k pre m v
  | ai k pre v =>
    cases (record_aiInstr k pre v).symm.trans hr
    exact ⟨_, reading_recordAI k pre v, exec_aiInstr_readBackPrefix k pre v⟩
  | w p nxt => cases hr

/-- After a fault no instruction has a step (R100, R112). -/
theorem exec_stopped {s : State} (h : s.status ≠ .running) (i : Instr) : exec i s = .fault .terminal := by
  cases i <;> exact whenRunning_stopped h _

/-- EXECUTE of an instruction asks for `Running` itself (R112). -/
theorem whenRunning_exec (i : Instr) (s : State) : whenRunning s (exec i s) = exec i s := by
  by_cases h : s.status = .running
  · exact whenRunning_running h _
  · rw [whenRunning_stopped h, exec_stopped h]

/-- EXECUTE of a record that is read as an instruction is EXECUTE of that instruction (R112). -/
theorem executeRecord_instr {r : Record} {j : Instr} (h : r.reading = .instr j) (s : State) :
    executeRecord r s = exec j s := by
  rw [← whenRunning_exec j s]
  simp only [executeRecord, h]

end Sys2Proof.Machine
end

section
/-! SUPPORT. Register codes (10_state.md R21), the fault of one that names no register (41_execute_common.md R120), and the frame
of a taken fault (60_exceptions.md R234). -/

namespace Sys2Proof.Machine

/-- Taking a fault latches it and leaves everything else (R222, R223, R234). -/
theorem takeFault_faultTaken (s : State) (f : Status) : FaultTaken s (takeFault s f) f :=
  ⟨rfl, fun _ => rfl, rfl, rfl, rfl, fun _ => rfl⟩

/-- The codes 4 to 7 name no register (R21). -/
theorem regOf_eq_none {c : BitVec 3} : regOf c = none ↔ 4 ≤ c.toNat := by
  revert c; decide

/-- One field of two that names no register is enough for `InvalidRegister` (R120). -/
theorem withRegisters_none {s : State} {a b : BitVec 3} (h : regOf a = none ∨ regOf b = none)
    (k : Reg → Reg → Outcome) :
    withRegisters s a b k = .next (raiseExecute s .invalidRegister) := by
  cases ha : regOf a with
  | none => exact withRegister_none ha _
  | some d =>
    have hb : regOf b = none := h.resolve_left (by simp [ha])
    exact (withRegister_some ha _).trans (withRegister_none hb _)

theorem plainOM_none {s : State} {a b : BitVec 3} (hs : s.status = .running) (h : regOf a = none ∨ regOf b = none)
    (len : Nat) (f : Word → Word → Word) : plainOM s a b len f = .next (raiseExecute s .invalidRegister) :=
  (whenRunning_running hs _).trans (withRegisters_none h _)

theorem checkedOM_none {s : State} {a b : BitVec 3} (hs : s.status = .running) (h : regOf a = none ∨ regOf b = none)
    (len : Nat) (f : Word → Word → Option Word) :
    checkedOM s a b len f = .next (raiseExecute s .invalidRegister) :=
  (whenRunning_running hs _).trans (withRegisters_none h _)

/-- A format `OM` instruction with a field that names no register takes `InvalidRegister` (R120). -/
theorem exec_om_invalid {pre : Option Byte} {reg rm : BitVec 3} {s : State} (hs : s.status = .running)
    (h : regOf reg = none ∨ regOf rm = none) {i : Instr}
    (hi : i ∈ [Instr.movMR pre reg rm, .movRM pre reg rm, .add pre reg rm, .sub pre reg rm, .xor pre reg rm]) :
    exec i s = .next (raiseExecute s .invalidRegister) := by
  simp only [List.mem_cons, List.not_mem_nil, or_false] at hi
  obtain rfl | rfl | rfl | rfl | rfl := hi
  · exact plainOM_none hs h.symm _ fun _ b => aluPass b
  · exact plainOM_none hs h _ fun _ b => aluPass b
  · exact checkedOM_none hs h.symm _ _
  · exact checkedOM_none hs h.symm _ _
  · exact plainOM_none hs h.symm _ _

/-- ADDI, SUBI and STOREI with an `rm` field that names no register take `InvalidRegister` (R120). -/
theorem exec_omi_invalid {pre : Option Byte} {rm : BitVec 3} {imm : BitVec 32} {s : State} (hs : s.status = .running)
    (h : regOf rm = none) {i : Instr} (hi : i ∈ [Instr.addi pre rm imm, .subi pre rm imm, .storei pre rm imm]) :
    exec i s = .next (raiseExecute s .invalidRegister) := by
  simp only [List.mem_cons, List.not_mem_nil, or_false] at hi
  obtain rfl | rfl | rfl := hi <;> exact (whenRunning_running hs _).trans (withRegister_none h _)

end Sys2Proof.Machine
end

section
/-! CERTIFICATES of the statements about the state (10_state.md). -/

namespace Sys2Proof.Machine

/-- Settles O16, from what a step can do and the bytes of what it decoded. -/
theorem countersMoveByTheLength : Obligations.CountersMoveByTheLength := by
  intro s t hstep
  obtain ⟨hrun, hc, -⟩ := step_next hstep
  obtain ⟨i, r, hd, hr, hx⟩ | ⟨off, reason, rfl⟩ := step_next_cases hstep
  · have hlen := Instr.length_eq_encode_length hr
    have hfits : s.cursor + i.length ≤ s.buf.size := hlen ▸ decode_window_fits hc hd
    obtain ⟨d, v, -, rfl⟩ | ⟨reason, rfl, -⟩ := hx
    · refine ⟨fun _ => ⟨i, hd, hlen, Instr.length_mem hr, rfl, rfl, hfits⟩, fun pos reason hf => ?_⟩
      simp [hrun] at hf
    · refine ⟨nofun, fun pos reason' hf => ?_⟩
      cases hf
      exact ⟨i, hd, hlen, Instr.length_mem hr, rfl, rfl, rfl, hfits⟩
  · exact ⟨nofun, nofun⟩

/-- Settles O49, through the reading of an instruction's record. -/
theorem recordExecutesAsItsInstruction : Obligations.RecordExecutesAsItsInstruction := by
  intro i r s hr
  obtain ⟨j, hread, hexec⟩ := reading_of_record hr
  exact (executeRecord_instr hread s).trans (hexec s)

/-- Settles O39: a code names no register exactly from 4 on, and the fault of R120 has the frame of every taken fault. -/
theorem invalidRegisterFaults : Obligations.InvalidRegisterFaults := by
  refine ⟨⟨rfl, rfl, rfl, rfl⟩, fun _ => regOf_eq_none, ?_, ?_⟩
  · intro pre reg rm s hs hcode i hi
    have hnone : regOf reg = none ∨ regOf rm = none := hcode.imp regOf_eq_none.2 regOf_eq_none.2
    exact ⟨_, exec_om_invalid hs hnone hi, takeFault_faultTaken s _⟩
  · intro pre rm imm s hs hcode i hi
    exact ⟨_, exec_omi_invalid hs (regOf_eq_none.2 hcode) hi, takeFault_faultTaken s _⟩

/-- Settles O52, by the laws of the register file. -/
theorem registersAreIndependent : Obligations.RegistersAreIndependent :=
  fun x r v => ⟨regs_get_set_same x r v, fun q hq => regs_get_set_other x r q v hq, rfl⟩

end Sys2Proof.Machine
end

section
/-! SUPPORT. A well-formed instruction decodes back from its bytes (30_encoding.md R60, R71; 40_decoder.md R98), and its bytes,
where they stand in the buffer, are what DECODE_NEXT sees first. -/

namespace Sys2Proof

/-- A well-formed instruction decodes from its encoding, whatever bytes follow (R60, R98). -/
theorem decode_encode_append {i : Instr} (h : i.wf = true) (rest : List Byte) :
    decode (encode i ++ rest) = .instr i := by
  cases i.byFormat with
  | oi32 d v =>
    have hop := decode_before_opcode none (.oi d) (bytesOfImm32 v ++ rest) rfl
    simpa [encodeOI32, decodeOpcode_byte, decodeOI] using hop
  | oi64 p d v =>
    have hop := decode_before_opcode (some p) (.oi d) (bytesOfImm64 v ++ rest) (by simpa [prefixOk] using h)
    simpa [encodeOI64, decodeOpcode_byte, decodeOI] using hop
  | om k pre m hm =>
    have hop := decode_before_opcode pre (.om k) (m :: rest) (by simpa using h)
    simpa [encodeOM, operandByte_fields m hm, decodeOpcode_byte, decodeOM, hm] using hop
  | omi k pre m v hm =>
    have hop := decode_before_opcode pre (.omi k) (m :: (bytesOfImm32 v ++ rest)) (by simpa using h)
    simpa [encodeOMI, operandByte_fields m hm, decodeOpcode_byte, decodeOMI, hm] using hop
  | ai k pre v =>
    have hop := decode_before_opcode pre (.ai k) (bytesOfImm32 v ++ rest) (by simpa using h)
    simpa [encodeAI, decodeOpcode_byte, decodeAI] using hop
  | w p nxt =>
    have hw : isPrefix p = true ∧ opcodeOf nxt = none := by simpa [Instr.wf] using h
    simp [encode, decode, decodeOpcode, hw]

/-- An encoding has 2 to 10 bytes (R60). -/
theorem encode_length_bounds (i : Instr) : 2 ≤ (encode i).length ∧ (encode i).length ≤ maxLength := by
  cases hr : i.record with
  | some r =>
    have hmem := Instr.length_mem hr
    rw [Instr.length_eq_encode_length hr] at hmem
    simp only [List.mem_cons, List.not_mem_nil, or_false] at hmem
    simp only [maxLength]
    omega
  | none =>
    obtain ⟨p, nxt, rfl⟩ := record_eq_none.1 hr
    simp [encode, maxLength]

end Sys2Proof

namespace Sys2Proof.Machine

/-- Bytes that stand in the buffer from the cursor on, at most ten of them, are the first that DECODE_NEXT sees (R40, R98). -/
theorem prefix_window {s : State} {bs : List Byte} (hlen : bs.length ≤ maxLength)
    (h : ∀ k, k < bs.length → s.readByte (s.cursor + k) = bs[k]?) : bs <+: window s := by
  refine List.prefix_iff_getElem?.2 fun k hk => ?_
  rw [window_getElem? s k (by omega), h k hk, List.getElem?_eq_getElem hk]

/-- Where the window begins with a byte or more, the run has bytes left (R91). -/
theorem cursor_lt_of_prefix_window {s : State} {bs : List Byte} (h : bs <+: window s) (hbs : 0 < bs.length) :
    s.cursor < s.buf.size := by
  have hle := h.length_le
  rw [window_length] at hle
  omega

end Sys2Proof.Machine
end

section
/-! SUPPORT. Reading after the host placed consecutive bytes (20_memory.md R40, R43). -/

namespace Sys2Proof.Machine

/-- An offset from `N` on does not exist (R43). -/
theorem read_of_size_le {m : Memory} {k : Nat} (h : m.size ≤ k) : m.read k = none :=
  if_neg (by omega)

/-- Bytes just placed read as placed; every other offset reads as before. -/
theorem placeAll_read (m : Memory) (a k : Nat) (bs : List Byte) (h : m.wf) (hfit : a + bs.length ≤ m.size) :
    (m.placeAll a bs).read k = if a ≤ k ∧ k < a + bs.length then bs[k - a]? else m.read k := by
  induction bs generalizing m a with
  | nil => exact (if_neg (by simp)).symm
  | cons b bs ih =>
    simp only [List.length_cons] at hfit ⊢
    have htail := ih (m.place a b) (a + 1) (place_wf m a b h) (by rw [place_size]; omega)
    have hhead := place_read m a k b h (by omega)
    rw [Memory.placeAll, htail, hhead]
    obtain hk | rfl | hk := Nat.lt_trichotomy k a
    · rw [if_neg (by omega), if_neg (by omega), if_neg (by omega)]
    · rw [if_neg (by omega), if_pos rfl, if_pos (by omega), Nat.sub_self, List.getElem?_cons_zero]
    · have hsub : k - a = k - (a + 1) + 1 := by omega
      by_cases hend : k < a + (bs.length + 1)
      · rw [if_pos (by omega), if_pos (by omega), hsub, List.getElem?_cons_succ]
      · rw [if_neg (by omega), if_neg (by omega), if_neg (by omega)]

/-- A buffer made of bytes reads as those bytes, and as nothing from its end on (R40, R43, R210). -/
theorem ofBytes_read (bs : List Byte) (a : Nat) : (Memory.ofBytes bs).read a = bs[a]? := by
  by_cases ha : a < bs.length
  · have hread := placeAll_read (Memory.empty.grow bs.length) 0 a bs (grow_wf _ _ empty_wf) (by simp)
    rwa [if_pos (by omega), Nat.sub_zero] at hread
  · rw [read_of_size_le (by rw [ofBytes_size]; omega), List.getElem?_eq_none (by omega)]

end Sys2Proof.Machine
end

section
/-! CERTIFICATES of the statements about the instruction buffer (20_memory.md). -/

namespace Sys2Proof.Machine

/-- Settles O8: the instruction's bytes begin the window, and decode back to it. -/
theorem stepRunsTheEncodedInstruction : Obligations.StepRunsTheEncodedInstruction := by
  intro s i hrun hwf hbytes
  obtain ⟨hpos, hmax⟩ := encode_length_bounds i
  have hwin : encode i <+: window s := prefix_window hmax hbytes
  have hleft : s.cursor < s.buf.size := cursor_lt_of_prefix_window hwin (by omega)
  obtain ⟨rest, hrest⟩ := hwin
  have hdec : decode (window s) = .instr i := hrest ▸ decode_encode_append hwf rest
  exact runOnce_instr hrun hleft hdec

/-- Settles O54, by the law of reading after placing. -/
theorem bufferHoldsTheLoadedBytes : Obligations.BufferHoldsTheLoadedBytes :=
  fun bs a => ⟨ofBytes_size bs, ofBytes_read bs a⟩

end Sys2Proof.Machine
end

section
/-! SUPPORT. The bytes the Decoder looks at (30_encoding.md R60): an immediate is read from its own bytes alone, so that bytes
past those a format can have change nothing. -/

namespace Sys2Proof

/-- An imm32 is read from the first four bytes (R67). -/
theorem readImm32_take {n : Nat} (hn : 4 ≤ n) (bs : List Byte) : readImm32 (bs.take n) = readImm32 bs := by
  cases hv : readImm32 bs with
  | none =>
    have hshort := readImm32_eq_none.1 hv
    rw [List.take_of_length_le (by omega), hv]
  | some v =>
    obtain ⟨rest, rfl⟩ := readImm32_some hv
    rw [List.take_append, List.take_of_length_le (by simpa using hn), readImm32_bytes]

/-- An imm64 is read from the first eight bytes (R68). -/
theorem readImm64_take {n : Nat} (hn : 8 ≤ n) (bs : List Byte) : readImm64 (bs.take n) = readImm64 bs := by
  cases hv : readImm64 bs with
  | none =>
    have hshort := readImm64_eq_none.1 hv
    rw [List.take_of_length_le (by omega), hv]
  | some v =>
    obtain ⟨rest, rfl⟩ := readImm64_some hv
    rw [List.take_append, List.take_of_length_le (by simpa using hn), readImm64_bytes]

/-- From the opcode on, the Decoder looks at no more than nine bytes: the opcode and an imm64 (R61). -/
theorem decodeOpcode_take (pre : Option Byte) (p : Nat) {n : Nat} (hn : 8 ≤ n) (bs : List Byte) :
    decodeOpcode pre p (bs.take (n + 1)) = decodeOpcode pre p bs := by
  cases bs with
  | nil => rfl
  | cons b bs =>
    rw [List.take_succ_cons]
    cases ho : opcodeOf b with
    | none => simp only [decodeOpcode, ho]
    | some o =>
      obtain rfl := byte_of_opcodeOf ho
      obtain ⟨k, rfl⟩ : ∃ k, n = k + 1 := ⟨n - 1, by omega⟩
      simp only [decodeOpcode_byte]
      cases o with
      | oi d => simp only [decodeOI, readImm32_take (by omega : 4 ≤ k + 1), readImm64_take hn]
      | om op =>
        cases bs with
        | nil => rfl
        | cons m tail => rfl
      | omi op =>
        cases bs with
        | nil => rfl
        | cons m tail => simp only [List.take_succ_cons, decodeOMI, readImm32_take (by omega : 4 ≤ k)]
      | ai op => simp only [decodeAI, readImm32_take (by omega : 4 ≤ k + 1)]

end Sys2Proof
end

section
/-! SUPPORT. The opcode map as a set of bytes (30_encoding.md R70, R72). -/

namespace Sys2Proof

/-- The bytes that are opcodes are those of the thirteen opcodes (R70). -/
theorem opcodeOf_isSome_iff {b : Byte} : (opcodeOf b).isSome = true ↔ ∃ o : Opcode, b = o.byte := by
  constructor
  · intro h
    obtain ⟨o, ho⟩ := Option.isSome_iff_exists.1 h
    exact ⟨o, byte_of_opcodeOf ho⟩
  · rintro ⟨o, rfl⟩
    simp

/-- The thirteen opcodes have these bytes (R70). -/
theorem exists_opcode_byte_iff {b : Byte} : (∃ o : Opcode, b = o.byte) ↔
    b ∈ ([0xb8, 0xb9, 0xba, 0xbb, 0x89, 0x8b, 0x01, 0x29, 0x81, 0x05, 0x2d, 0xc7, 0x31] : List Byte) := by
  constructor
  · rintro ⟨o, rfl⟩
    cases o with
    | oi r => cases r <;> decide
    | om k => cases k <;> decide
    | omi k => cases k <;> decide
    | ai k => cases k <;> decide
  · intro h
    apply opcodeOf_isSome_iff.1
    revert b
    decide

/-- A member of `PREFIX_SET` is no opcode (R63 item 4). -/
theorem opcodeOf_of_isPrefix {b : Byte} (h : isPrefix b = true) : opcodeOf b = none := by
  cases ho : opcodeOf b with
  | none => rfl
  | some o =>
    rw [byte_of_opcodeOf ho, isPrefix_opcode_byte] at h
    cases h

end Sys2Proof
end

section
/-! SUPPORT. `sext_64` (41_execute_common.md R119), bit by bit and as a signed number. -/

namespace Sys2Proof.Machine

/-- The low 32 bits are the immediate's. -/
theorem sext64_getLsbD_low (v : BitVec 32) {k : Nat} (hk : k < 32) : (sext64 v).getLsbD k = v.getLsbD k := by
  have hk' : k < 64 := by omega
  rw [sext64, BitVec.getLsbD_signExtend, if_pos hk, decide_eq_true hk', Bool.true_and]

/-- The high 32 bits are the immediate's bit 31. -/
theorem sext64_getLsbD_high (v : BitVec 32) {k : Nat} (hk : 32 ≤ k) (hk' : k < 64) :
    (sext64 v).getLsbD k = v.getLsbD 31 := by
  rw [sext64, BitVec.getLsbD_signExtend, if_neg (Nat.not_lt.2 hk), decide_eq_true hk', Bool.true_and,
    BitVec.msb_eq_getLsbD_last]

/-- Sign extension keeps the signed value. -/
@[simp] theorem sext64_toInt (v : BitVec 32) : (sext64 v).toInt = v.toInt :=
  BitVec.toInt_signExtend_of_le (by decide)

end Sys2Proof.Machine
end

section
/-! CERTIFICATES of the statements about the encoding (30_encoding.md). -/

namespace Sys2Proof.Machine

/-- Settles O2, by the format the instruction is written in. -/
theorem decodeOfEncodeIsTheInstruction : Obligations.DecodeOfEncodeIsTheInstruction :=
  fun _ rest hwf => decode_encode_append hwf rest

/-- Settles O3, from everything that decodes from the opcode on. -/
theorem decodedBytesAreItsEncoding : Obligations.DecodedBytesAreItsEncoding :=
  fun _ _ h => decode_instr h

/-- Settles O4: one widening byte, and nine bytes from the opcode on. -/
theorem decodeLooksAtTenBytes : Obligations.DecodeLooksAtTenBytes := by
  intro bs
  cases bs with
  | nil => rfl
  | cons b bs =>
    have hafter : decodeOpcode (some b) 1 (bs.take 9) = decodeOpcode (some b) 1 bs :=
      decodeOpcode_take (some b) 1 (by decide) bs
    have hfirst : decodeOpcode none 0 (b :: bs.take 9) = decodeOpcode none 0 (b :: bs) :=
      decodeOpcode_take none 0 (n := 9) (by decide) (b :: bs)
    simp only [List.take_succ_cons, decode, hafter, hfirst]

/-- Settles O5, from the opcode map and the Decoder's lookup in it. -/
theorem otherBytesAreNoOpcode : Obligations.OtherBytesAreNoOpcode := by
  have hcount : ((List.range 256).filter fun n => (opcodeOf (BitVec.ofNat 8 n)).isNone).length = 243 := by
    decide +kernel
  refine ⟨fun b => opcodeOf_isSome_iff.trans exists_opcode_byte_iff, hcount, fun _ => opcodeOf_of_isPrefix, ?_, ?_⟩
  · intro b rest hop hpre
    simp [decode, hpre, decodeOpcode, hop]
  · intro p b rest hpre hop
    simp [decode, hpre, decodeOpcode, hop]

/-- Settles O44: sign extension bit by bit, and the range of a signed 32-bit value. -/
theorem signExtensionKeepsTheValue : Obligations.SignExtensionKeepsTheValue := by
  intro v
  have hval : (sext64 v).toInt = v.toInt := sext64_toInt v
  have hupper : v.toInt < 2 ^ 31 := BitVec.toInt_lt
  refine ⟨fun _ hk => sext64_getLsbD_low v hk, fun _ hk hk' => sext64_getLsbD_high v hk hk', hval, ?_, ?_⟩
  · rw [hval]
    exact BitVec.le_toInt v
  · rw [hval]
    exact Int.le_sub_one_of_lt hupper

end Sys2Proof.Machine
end

section
/-! SUPPORT. The Decoder on bytes whose opcode is known (40_decoder.md R94): the direct addressing mode as a range of operand
bytes, and steps 3 and 4 for the two formats that have one. -/

namespace Sys2Proof

/-- The direct pattern in the two high bits is the 64 operand bytes from 0xC0 on (R65). -/
theorem modField_eq_modDirect_iff {m : Byte} : modField m = modDirect ↔ 0xc0 ≤ m.toNat := by
  have hm : m.toNat < 256 := m.isLt
  rw [← BitVec.toNat_inj, modField, BitVec.extractLsb'_toNat, Nat.shiftRight_eq_div_pow]
  simp only [modDirect, BitVec.ofNat_eq_ofNat, BitVec.toNat_ofNat]
  omega

/-- An operand byte is not direct exactly below 0xC0. -/
theorem modField_ne_modDirect_iff {m : Byte} : modField m ≠ modDirect ↔ m.toNat < 0xc0 :=
  (not_congr modField_eq_modDirect_iff).trans Nat.not_le

/-- A format `OM` opcode before an operand byte (R94). -/
theorem decode_om (k : OMOp) (m : Byte) (rest : List Byte) :
    decode ((Opcode.om k).byte :: m :: rest) = decodeOM none k 1 (m :: rest) :=
  (decode_before_opcode none (.om k) (m :: rest) rfl).trans (decodeOpcode_byte ..)

/-- A format `OMI` opcode before an operand byte (R94, R95). -/
theorem decode_omi (k : OMIOp) (m : Byte) (rest : List Byte) :
    decode ((Opcode.omi k).byte :: m :: rest) = decodeOMI none k 1 (m :: rest) :=
  (decode_before_opcode none (.omi k) (m :: rest) rfl).trans (decodeOpcode_byte ..)

end Sys2Proof
end

section
/-! SUPPORT. DECODE_NEXT by what it answers (40_decoder.md R97, R98), and the step as a DECODE_NEXT followed by an EXECUTE. -/

namespace Sys2Proof.Machine

/-- Where the bytes at the cursor are an instruction, the run has bytes left (R43, R91). -/
theorem cursor_lt_of_decode_window {s : State} {i : Instr} (hd : decode (window s) = .instr i) :
    s.cursor < s.buf.size := by
  obtain ⟨-, rest, hw⟩ := decode_instr hd
  have hpos := (encode_length_bounds i).1
  exact cursor_lt_of_prefix_window ⟨rest, hw.symm⟩ (by omega)

/-- A DECODE_NEXT answers only in `Running` (R98, R100). -/
theorem running_of_decodeNext {s : State} (h : decodeNext s ≠ .noStep) : s.status = .running := by
  unfold decodeNext at h
  split at h
  · assumption
  · exact absurd rfl h
  · exact absurd rfl h

/-- Everything behind a record that DECODE_NEXT answers: its instruction stands at the cursor, which moves past it (R97). -/
theorem decodeNext_decoded {s t : State} {r : Record} {i : Instr} (h : decodeNext s = .decoded r i t) :
    s.status = .running ∧ decode (window s) = .instr i ∧ i.record = some r ∧ t = advanceCursor s i.length := by
  have hrun : s.status = .running := running_of_decodeNext (by simp [h])
  obtain ⟨r', i', hd, hr, heq⟩ | ⟨p, nxt, -, heq⟩ | ⟨off, reason, -, heq⟩ := decodeNext_running hrun
  · cases heq.symm.trans h
    exact ⟨hrun, hd, hr, rfl⟩
  · cases heq.symm.trans h
  · cases heq.symm.trans h

/-- Everything behind a fault that DECODE_NEXT takes: a widening byte before one that is no opcode, or the decoder's own fault. -/
theorem decodeNext_faulted {s t : State} (h : decodeNext s = .faulted t) :
    s.status = .running ∧
      ((∃ p nxt, decode (window s) = .instr (.w p nxt) ∧ t = raisePrefix s) ∨
        ∃ off reason, decode (window s) = .fault off reason ∧ t = raiseDecode s (s.cursor + off) reason) := by
  have hrun : s.status = .running := running_of_decodeNext (by simp [h])
  obtain ⟨r, i, -, -, heq⟩ | ⟨p, nxt, hd, heq⟩ | ⟨off, reason, hd, heq⟩ := decodeNext_running hrun
  · cases heq.symm.trans h
  · cases heq.symm.trans h
    exact ⟨hrun, .inl ⟨p, nxt, hd, rfl⟩⟩
  · cases heq.symm.trans h
    exact ⟨hrun, .inr ⟨off, reason, hd, rfl⟩⟩

/-- A step that ends in a decode fault is a DECODE_NEXT that took it: no EXECUTE latches one (R98, R200, R223). -/
theorem decodeNext_of_step_decodeFault {s t : State} {pos : Nat} {reason : DecodeReason} (h : step s = .next t)
    (hf : t.status = .decodeFault pos reason) : s.cursor < s.buf.size ∧ decodeNext s = .faulted t := by
  obtain ⟨hrun, hc, ⟨i, hd, hx⟩ | ⟨off, reason', hd, rfl⟩⟩ := step_next h
  · cases hr : i.record with
    | some r =>
      obtain ⟨d, v, -, rfl⟩ | ⟨xreason, rfl, -⟩ := exec_next hr hx
      · simp [hrun] at hf
      · cases hf
    | none =>
      obtain ⟨p, nxt, rfl⟩ := record_eq_none.1 hr
      rw [exec_w_next hx]
      exact ⟨hc, decodeNext_w hrun hd⟩
  · exact ⟨hc, decodeNext_fault hrun hd⟩

/-- A widening byte at the cursor, before a byte that is no opcode, is read as `w` (R93, R99; log 2). -/
theorem decode_window_w {s : State} {p b : Byte} (hp : s.readByte s.cursor = some p) (hpre : isPrefix p = true)
    (hb : s.readByte (s.cursor + 1) = some b) (hop : opcodeOf b = none) : decode (window s) = .instr (.w p b) := by
  have hwf : (Instr.w p b).wf = true := by simp [Instr.wf, hpre, hop]
  have hbytes : ∀ k, k < [p, b].length → s.readByte (s.cursor + k) = [p, b][k]? := by
    intro k hk
    match k, hk with
    | 0, _ => exact hp
    | 1, _ => exact hb
  obtain ⟨rest, hrest⟩ := prefix_window (bs := [p, b]) (by simp [maxLength]) hbytes
  rw [← hrest]
  exact decode_encode_append hwf rest

/-- A decoded instruction's bytes stand in the buffer from the cursor on (R40, R98). -/
theorem readByte_of_decode_window {s : State} {i : Instr} (hd : decode (window s) = .instr i) {k : Nat}
    (hk : k < (encode i).length) : s.readByte (s.cursor + k) = (encode i)[k]? := by
  obtain ⟨-, rest, hw⟩ := decode_instr hd
  have hmax := (encode_length_bounds i).2
  rw [← window_getElem? s k (by omega), hw, List.getElem?_append_left hk]

end Sys2Proof.Machine
end

section
/-! SUPPORT. Where a decode fault can be (40_decoder.md R96, by D6). The bytes DECODE_NEXT sees are an optional widening byte (a
member of `PREFIX_SET`, R63) and the bytes from the opcode's place on; each fault found in those is at one of seven places in
the buffer. -/

namespace Sys2Proof.Machine

/-- The widening byte at the cursor, if there is one (R92). -/
def prefixByte (s : State) : Option Byte := (s.readByte s.cursor).filter isPrefix

/-- The bytes DECODE_NEXT sees from the opcode's place on (R93). -/
def opcodeBytes (s : State) : List Byte := (window s).drop (prefixByte s).toList.length

@[simp] theorem isSome_prefixByte (s : State) : (prefixByte s).isSome = prefixAt s := by
  cases hb : s.readByte s.cursor <;> simp [prefixByte, prefixAt, hb, Option.isSome_filter]

/-- The opcode is looked for after the widening byte, if there is one (R92). -/
theorem opcodeOffset_eq (s : State) : opcodeOffset s = s.cursor + (prefixByte s).toList.length := by
  rw [opcodeOffset, ← isSome_prefixByte]
  cases prefixByte s <;> rfl

/-- A byte exists exactly below `N` (R40, R43). -/
theorem lt_size_of_readByte {s : State} {a : Nat} {b : Byte} (h : s.readByte a = some b) : a < s.buf.size := by
  by_contra hle
  rw [State.readByte, read_of_size_le (by omega)] at h
  cases h

/-- The opcode's place is inside the buffer or at its end (R92). -/
theorem opcodeOffset_le_size {s : State} (hc : s.cursor ≤ s.buf.size) : opcodeOffset s ≤ s.buf.size := by
  unfold opcodeOffset
  split
  · next hp =>
    obtain ⟨b, hb, -⟩ := (Option.any_eq_true _ _).1 hp
    exact lt_size_of_readByte hb
  · exact hc

/-- What DECODE_NEXT reads is its reading of the opcode and what follows, after the widening byte (R92, R93). -/
theorem decode_window_eq (s : State) :
    decode (window s) = decodeOpcode (prefixByte s) (prefixByte s).toList.length (opcodeBytes s) := by
  have hfirst : (window s)[0]? = s.readByte s.cursor := window_getElem? s 0 (by decide)
  unfold opcodeBytes prefixByte
  rw [← hfirst]
  cases window s with
  | nil => rfl
  | cons b bs =>
    cases hb : isPrefix b <;> simp [decode, Option.filter, hb]

/-- The `k`-th of the bytes from the opcode on stands in the buffer `k` after the opcode's place (R40). -/
theorem readByte_of_opcodeBytes {s : State} {k : Nat} {b : Byte} (h : (opcodeBytes s)[k]? = some b) :
    s.readByte (opcodeOffset s + k) = some b := by
  rw [opcodeBytes, List.getElem?_drop] at h
  rw [opcodeOffset_eq, Nat.add_assoc]
  exact readByte_of_window h

/-- Fewer than `k` bytes are seen from the opcode on exactly where the buffer ends before them: DECODE_NEXT sees nine of them
if there are so many (R60). -/
theorem opcodeBytes_length_lt_iff {s : State} {k : Nat} (hpos : 0 < k) (hk : k ≤ 9) :
    (opcodeBytes s).length < k ↔ s.buf.size < opcodeOffset s + k := by
  have hone : (prefixByte s).toList.length ≤ 1 := by cases prefixByte s <;> simp
  rw [opcodeBytes, List.length_drop, window_length, opcodeOffset_eq, maxLength]
  omega

/-- The opcode found is the one the bytes from its place on begin with (R93). -/
theorem opcodeAt_of_opcodeBytes {s : State} {o : Opcode} {rest : List Byte} (h : opcodeBytes s = o.byte :: rest) :
    opcodeAt s = some o := by
  have hb : s.readByte (opcodeOffset s + 0) = some o.byte := readByte_of_opcodeBytes (by simp [h])
  simpa [opcodeAt] using congrArg (·.bind opcodeOf) hb

/-- An opcode found that has an operand byte is of one of the two formats that have one (R71). -/
theorem opcodeAt_of_hasOperand {s : State} {o : Opcode} (ho : opcodeAt s = some o) (hop : o.HasOperand) :
    (∃ k, opcodeAt s = some (.om k)) ∨ ∃ k, opcodeAt s = some (.omi k) := by
  obtain ⟨k, rfl⟩ | ⟨k, rfl⟩ := hop
  · exact .inl ⟨k, ho⟩
  · exact .inr ⟨k, ho⟩

/-- Where an opcode was found there is a byte (R93). -/
theorem opcodeOffset_lt_size {s : State} {o : Opcode} (h : opcodeAt s = some o) : opcodeOffset s < s.buf.size := by
  obtain ⟨b, hb, -⟩ := Option.bind_eq_some_iff.1 h
  exact lt_size_of_readByte hb

/-- The places a decode fault can be at, with its reason: no byte for the opcode, or for the operand byte of an opcode that has
one; a byte that is no opcode; an operand byte that is not direct; too few bytes for the immediate of a load, of an
accumulator opcode, or after a direct operand byte (R93 to R96). -/
inductive DecodeFaultPlace (s : State) : Nat → DecodeReason → Prop where
  | noOpcode (hend : opcodeOffset s = s.buf.size) : DecodeFaultPlace s (opcodeOffset s) .truncatedInput
  | noOperand {o : Opcode} (ho : opcodeAt s = some o) (hop : o.HasOperand) (hend : opcodeOffset s + 1 = s.buf.size) :
      DecodeFaultPlace s (opcodeOffset s + 1) .truncatedInput
  | unknownOpcode {b : Byte} (hb : s.readByte (opcodeOffset s) = some b) (hop : opcodeOf b = none) :
      DecodeFaultPlace s (opcodeOffset s) .unknownOpcode
  | notDirect {o : Opcode} {m : Byte} (ho : opcodeAt s = some o) (hop : o.HasOperand)
      (hb : s.readByte (opcodeOffset s + 1) = some m) (hm : modField m ≠ modDirect) :
      DecodeFaultPlace s (opcodeOffset s + 1) .unsupportedAddressingMode
  | loadImm {r : Reg} (ho : opcodeAt s = some (.oi r))
      (hend : s.buf.size < opcodeOffset s + 1 + (if prefixAt s then 8 else 4)) :
      DecodeFaultPlace s (opcodeOffset s + 1) .truncatedImmediate
  | accumulatorImm {k : AIOp} (ho : opcodeAt s = some (.ai k)) (hend : s.buf.size < opcodeOffset s + 1 + 4) :
      DecodeFaultPlace s (opcodeOffset s + 1) .truncatedImmediate
  | operandImm {k : OMIOp} {m : Byte} (ho : opcodeAt s = some (.omi k)) (hb : s.readByte (opcodeOffset s + 1) = some m)
      (hm : modField m = modDirect) (hend : s.buf.size < opcodeOffset s + 2 + 4) :
      DecodeFaultPlace s (opcodeOffset s + 2) .truncatedImmediate

/-- A decode fault is at an offset inside the buffer or at its end (R96). -/
theorem DecodeFaultPlace.le_size {s : State} {pos : Nat} {reason : DecodeReason} (h : DecodeFaultPlace s pos reason) :
    pos ≤ s.buf.size := by
  cases h with
  | noOpcode hend => exact hend.le
  | noOperand _ _ hend => exact hend.le
  | unknownOpcode hb _ => exact (lt_size_of_readByte hb).le
  | notDirect _ _ hb _ => exact (lt_size_of_readByte hb).le
  | loadImm ho _ => exact opcodeOffset_lt_size ho
  | accumulatorImm ho _ => exact opcodeOffset_lt_size ho
  | operandImm _ hb _ _ => exact lt_size_of_readByte hb

/-- A fault found from the opcode on is at one of the places. -/
theorem decodeFaultPlace_of_decodeOpcode {s : State} {p off : Nat} {reason : DecodeReason} (hc : s.cursor ≤ s.buf.size)
    (hp : s.cursor + p = opcodeOffset s) (h : decodeOpcode (prefixByte s) p (opcodeBytes s) = .fault off reason) :
    DecodeFaultPlace s (s.cursor + off) reason := by
  have hshort {k : Nat} (hpos : 0 < k) (hk : k ≤ 9) := (opcodeBytes_length_lt_iff (s := s) hpos hk).1
  obtain ⟨hnil, rfl, rfl⟩ | ⟨b, rest, hcons, hop, -, rfl, rfl⟩ | ⟨o, rest, hcons, hcase⟩ := decodeOpcode_fault h
  · have hend := hshort (k := 1) (by omega) (by omega) (by simp [hnil])
    have hle := opcodeOffset_le_size hc
    rw [hp]
    exact .noOpcode (by omega)
  · rw [hp]
    exact .unknownOpcode (readByte_of_opcodeBytes (k := 0) (by simp [hcons])) hop
  have ho := opcodeAt_of_opcodeBytes hcons
  have hlt := opcodeOffset_lt_size ho
  obtain ⟨hop, rfl, rfl, rfl⟩ | ⟨hop, ⟨m, tail, rfl, hm⟩, rfl, rfl⟩ | ⟨⟨r, rfl⟩, hlen, rfl, rfl⟩ |
    ⟨⟨k, rfl⟩, hlen, rfl, rfl⟩ | ⟨⟨k, rfl⟩, ⟨m, tail, rfl, hm, hlen⟩, rfl, rfl⟩ := hcase
  · have hend := hshort (k := 2) (by omega) (by omega) (by simp [hcons])
    rw [← Nat.add_assoc, hp]
    exact .noOperand ho hop (by omega)
  · rw [← Nat.add_assoc, hp]
    exact .notDirect ho hop (readByte_of_opcodeBytes (k := 1) (by simp [hcons])) hm
  · rw [isSome_prefixByte] at hlen
    rw [← Nat.add_assoc, hp]
    refine .loadImm ho ?_
    rw [Nat.add_assoc]
    refine hshort (by omega) (by split <;> omega) ?_
    rw [hcons, List.length_cons]
    omega
  · have hend := hshort (k := 5) (by omega) (by omega) (by rw [hcons, List.length_cons]; omega)
    rw [← Nat.add_assoc, hp]
    exact .accumulatorImm ho hend
  · have hend := hshort (k := 6) (by omega) (by omega) (by rw [hcons, List.length_cons, List.length_cons]; omega)
    rw [← Nat.add_assoc, hp]
    exact .operandImm ho (readByte_of_opcodeBytes (k := 1) (by simp [hcons])) hm hend

/-- Every fault DECODE_NEXT takes with the cursor inside the buffer or at its end is at one of the places, and latching it is
all that happens (R96, R98, R222). -/
theorem decodeNext_faultPlace {s t : State} (hc : s.cursor ≤ s.buf.size) (h : decodeNext s = .faulted t) :
    ∃ pos reason, t = raiseDecode s pos reason ∧ DecodeFaultPlace s pos reason := by
  obtain ⟨-, ⟨p, nxt, hd, rfl⟩ | ⟨off, reason, hd, rfl⟩⟩ := decodeNext_faulted h
  · obtain ⟨hwf, -⟩ := decode_instr hd
    have hbyte {k : Nat} := readByte_of_decode_window hd (k := k)
    obtain ⟨hpre, hop⟩ : isPrefix p = true ∧ opcodeOf nxt = none := by simpa [Instr.wf] using hwf
    have hfirst : s.readByte s.cursor = some p := hbyte (k := 0) (by simp [encode])
    have hoff : opcodeOffset s = s.cursor + 1 := by simp [opcodeOffset, prefixAt, hfirst, hpre]
    refine ⟨s.cursor + 1, .unknownOpcode, rfl, ?_⟩
    rw [← hoff]
    exact .unknownOpcode (hoff ▸ hbyte (k := 1) (by simp [encode])) hop
  · rw [decode_window_eq] at hd
    exact ⟨_, _, rfl, decodeFaultPlace_of_decodeOpcode hc (opcodeOffset_eq s).symm hd⟩

end Sys2Proof.Machine
end

section
/-! CERTIFICATES of the statements about the Decoder (40_decoder.md). -/

namespace Sys2Proof.Machine

/-- Settles O6: an operand byte is direct from 0xC0 on, and the check comes before the immediate is read. -/
theorem addressingModeIsCheckedFirst : Obligations.AddressingModeIsCheckedFirst := by
  refine ⟨fun _ => modField_eq_modDirect_iff, fun k m rest => ⟨fun hm => ?_, fun hm => ?_⟩,
    fun k m rest => ⟨fun hm hlen => ?_, fun hm hlen => ?_, fun hm => ?_⟩⟩
  · rw [decode_om, decodeOM, if_pos (modField_eq_modDirect_iff.2 hm)]
    exact ⟨_, rfl, by simp [lengthWith]⟩
  · rw [decode_om, decodeOM, if_neg (modField_ne_modDirect_iff.2 hm)]
  · obtain ⟨v, hv⟩ := Option.ne_none_iff_exists'.1 (mt readImm32_eq_none.1 (Nat.not_lt.2 hlen))
    rw [decode_omi, decodeOMI, if_pos (modField_eq_modDirect_iff.2 hm), hv]
    exact ⟨_, rfl, by simp [lengthWith]⟩
  · rw [decode_omi, decodeOMI, if_pos (modField_eq_modDirect_iff.2 hm), readImm32_eq_none.2 hlen]
  · rw [decode_omi, decodeOMI, if_neg (modField_ne_modDirect_iff.2 hm)]

/-- Settles O15, by the place the fault is at. -/
theorem decodeFaultOffsets : Obligations.DecodeFaultOffsets := by
  intro s t pos reason hstep hf
  obtain ⟨hc, hnext⟩ := decodeNext_of_step_decodeFault hstep hf
  obtain ⟨pos', reason', rfl, hplace⟩ := decodeNext_faultPlace hc.le hnext
  cases hf
  refine ⟨rfl, hplace.le_size, ?_⟩
  cases hplace with
  | noOpcode hend => exact ⟨fun _ => ⟨hend, .inl rfl⟩, nofun, nofun, nofun⟩
  | noOperand ho hop hend => exact ⟨fun _ => ⟨hend, .inr ⟨rfl, opcodeAt_of_hasOperand ho hop⟩⟩, nofun, nofun, nofun⟩
  | unknownOpcode hb hop => exact ⟨nofun, fun _ => ⟨rfl, _, hb, hop⟩, nofun, nofun⟩
  | notDirect ho hop hb hm => exact ⟨nofun, nofun, fun _ => ⟨rfl, opcodeAt_of_hasOperand ho hop, _, hb, hm⟩, nofun⟩
  | loadImm ho hend => exact ⟨nofun, nofun, nofun, fun _ => .inl ⟨_, ho, rfl, hend⟩⟩
  | accumulatorImm ho hend => exact ⟨nofun, nofun, nofun, fun _ => .inr (.inl ⟨_, ho, rfl, hend⟩)⟩
  | operandImm ho hb hm hend => exact ⟨nofun, nofun, nofun, fun _ => .inr (.inr ⟨_, _, ho, hb, hm, rfl, hend⟩)⟩

/-- Settles O59, from what DECODE_NEXT answers and the places its faults are at. -/
theorem decodeNextAnswersARecordOrAFault : Obligations.DecodeNextAnswersARecordOrAFault := by
  intro s hrun
  refine ⟨?_, fun r i t h => ?_, fun t h => ?_, fun p b hp hpre hb hop => ?_⟩
  · obtain ⟨_, _, -, -, h⟩ | ⟨_, _, -, h⟩ | ⟨_, _, -, h⟩ := decodeNext_running hrun
    · exact .inl ⟨_, _, _, h⟩
    · exact .inr ⟨_, h⟩
    · exact .inr ⟨_, h⟩
  · obtain ⟨-, hd, hr, rfl⟩ := decodeNext_decoded h
    have hlen : i.length = (encode i).length := Instr.length_eq_encode_length hr
    have hfits : s.cursor + (encode i).length ≤ s.buf.size := decode_window_fits (cursor_lt_of_decode_window hd) hd
    rw [record_length hr]
    exact ⟨(decode_instr hd).1, hr, hlen, fun k hk => readByte_of_decode_window hd (hlen ▸ hk), rfl, hlen ▸ hfits, hrun⟩
  · obtain ⟨off, reason, rfl⟩ : ∃ off reason, t = raiseDecode s (s.cursor + off) reason := by
      obtain ⟨-, ⟨p, nxt, -, rfl⟩ | ⟨off, reason, -, rfl⟩⟩ := decodeNext_faulted h
      · exact ⟨1, .unknownOpcode, rfl⟩
      · exact ⟨off, reason, rfl⟩
    refine ⟨_, reason, takeFault_faultTaken s _, Nat.le_add_right _ _, fun hc => ?_⟩
    obtain ⟨pos, reason', heq, hplace⟩ := decodeNext_faultPlace hc h
    cases congrArg State.status heq
    exact hplace.le_size
  · exact ⟨_, decodeNext_w hrun (decode_window_w hp hpre hb hop), takeFault_faultTaken s _⟩

/-- Settles O1, by evaluating the Decoder on each of the words. -/
theorem specWordsDecode : Obligations.SpecWordsDecode := by
  unfold Obligations.SpecWordsDecode
  decide

/-- Settles O7: bytes that decode are bytes left, so the step is DECODE_NEXT and EXECUTE. -/
theorem stepRunsTheDecodedInstruction : Obligations.StepRunsTheDecodedInstruction :=
  fun _ _ hrun hd => runOnce_instr hrun (cursor_lt_of_decode_window hd) hd

/-- Settles O10; the lone widening byte has no opcode after it, which is the fault. -/
theorem hasMoreIffUnreadBytes : Obligations.HasMoreIffUnreadBytes := by
  refine ⟨fun s => decide_eq_true_iff, fun s hempty => ?_, by decide, _, 1, .truncatedInput, rfl, rfl⟩
  exact decide_eq_false (by omega)

/-- Settles O14, from what DECODE_NEXT answers. -/
theorem decodeNextTouchesNoRegister : Obligations.DecodeNextTouchesNoRegister := by
  refine fun s => ⟨fun r i t h => ?_, fun t h => ?_⟩
  · obtain ⟨-, -, hr, rfl⟩ := decodeNext_decoded h
    rw [record_length hr]
    exact ⟨rfl, rfl, rfl, fun _ => rfl, rfl⟩
  · obtain ⟨-, ⟨p, nxt, -, rfl⟩ | ⟨off, reason, -, rfl⟩⟩ := decodeNext_faulted h
    · exact ⟨_, _, takeFault_faultTaken s _⟩
    · exact ⟨_, _, takeFault_faultTaken s _⟩

/-- Settles O38: the arm of `w` raises the fault that DECODE_NEXT raises. -/
theorem prefixWithoutOpcodeFaults : Obligations.PrefixWithoutOpcodeFaults :=
  fun _ _ s hrun => ⟨raisePrefix s, whenRunning_running hrun _, takeFault_faultTaken s _⟩

end Sys2Proof.Machine
end

section
/-! SUPPORT. What EXECUTE does on valid operands in `Running` (41_execute_common.md R111, R114 to R118): the shared operations run
to their commit, and the six add and subtract instructions as the checked commit of one exact integer. -/

namespace Sys2Proof.Machine

/-- The commit writes its register, advances `pc` and leaves everything else (R25, R111). -/
theorem committed_completed (s : State) (d : Reg) (v : Word) (len : Nat) : Completed s (committed s d v len) d v len :=
  ⟨regs_get_set_same s.regs d v, fun r hr => regs_get_set_other s.regs d r v hr, rfl, rfl, rfl, rfl, fun _ => rfl⟩

/-- After a fault there is no step (R100, R234). -/
theorem step_stopped {s : State} (h : s.status ≠ .running) : step s = .fault .terminal :=
  whenRunning_stopped h _

/-- An instruction that answers a next state ran in `Running` (R112). -/
theorem running_of_exec_next {i : Instr} {s t : State} (h : exec i s = .next t) : s.status = .running := by
  by_contra hs
  rw [exec_stopped hs] at h
  cases h

section Operands

variable {s : State} {a b : BitVec 3} {d r : Reg}

theorem withRegisters_some (ha : regOf a = some d) (hb : regOf b = some r) (k : Reg → Reg → Outcome) :
    withRegisters s a b k = k d r :=
  (withRegister_some ha _).trans (withRegister_some hb _)

/-- On two valid register codes an operation without overflow check completes. -/
theorem plainOM_some (hs : s.status = .running) (ha : regOf a = some d) (hb : regOf b = some r) (len : Nat)
    (f : Word → Word → Word) : plainOM s a b len f = .next (committed s d (f (s.reg d) (s.reg r)) len) :=
  (whenRunning_running hs _).trans (withRegisters_some ha hb _)

/-- On two valid register codes an operation with overflow check is the checked commit. -/
theorem checkedOM_some (hs : s.status = .running) (ha : regOf a = some d) (hb : regOf b = some r) (len : Nat)
    (f : Word → Word → Option Word) : checkedOM s a b len f = commitChecked s d (f (s.reg d) (s.reg r)) len :=
  (whenRunning_running hs _).trans (withRegisters_some ha hb _)

end Operands

/-! ## The checked commit of an exact integer -/

section Exact

variable (s : State) (d : Reg) (len : Nat) {z : Int}

/-- An exact integer in `S64` is committed, and the register denotes it. -/
theorem commitChecked_exact64_completes (hlo : min64 ≤ z) (hhi : z ≤ max64) :
    ∃ t v, commitChecked s d (exact64 z) len = .next t ∧ v.toInt = z ∧ Completed s t d v len := by
  have hz : exact64 z = some (BitVec.ofInt 64 z) := if_pos ⟨hlo, hhi⟩
  obtain ⟨-, -, hv⟩ := exact64_eq_some.1 hz
  rw [hz]
  exact ⟨_, _, rfl, hv, committed_completed s d _ len⟩

/-- An exact integer outside `S64` is the fault, and the run is over (R116, R234). -/
theorem commitChecked_exact64_faults (hout : z < min64 ∨ max64 < z) :
    ∃ t, commitChecked s d (exact64 z) len = .next t ∧
      FaultTaken s t (.executeFault s.pc .arithmeticOverflow) ∧ step t = .fault .terminal := by
  rw [exact64_eq_none.2 hout]
  exact ⟨_, rfl, takeFault_faultTaken s _, step_stopped nofun⟩

variable {s d len}

/-- A checked commit that ends in `Running` has left the exact integer in its register. -/
theorem toInt_of_commitChecked_exact64 {t : State} (h : commitChecked s d (exact64 z) len = .next t)
    (ht : t.status = .running) : (t.reg d).toInt = z := by
  obtain ⟨w, hw, rfl⟩ | ⟨-, rfl⟩ := commitChecked_next h
  · obtain ⟨-, -, hval⟩ := exact64_eq_some.1 hw
    obtain ⟨hreg, -⟩ := committed_completed s d w len
    rw [hreg, hval]
  · cases ht

end Exact

/-! ## The six add and subtract instructions -/

section AddSub

variable {pre : Option Byte} {reg rm : BitVec 3} {imm : BitVec 32} {q r : Reg} {s : State} (hs : s.status = .running)
include hs

theorem exec_add (hq : regOf reg = some q) (hr : regOf rm = some r) :
    exec (.add pre reg rm) s =
      commitChecked s r (exact64 ((s.reg r).toInt + (s.reg q).toInt)) (lengthWith pre 2) :=
  checkedOM_some hs hr hq _ aluAdd

theorem exec_sub (hq : regOf reg = some q) (hr : regOf rm = some r) :
    exec (.sub pre reg rm) s =
      commitChecked s r (exact64 ((s.reg r).toInt - (s.reg q).toInt)) (lengthWith pre 2) :=
  checkedOM_some hs hr hq _ aluSub

/-- A register and immediate addition takes the immediate as a signed number (R67). -/
theorem checkedImm_aluAdd (len : Nat) : whenRunning s (checkedImm s r imm len aluAdd) =
    commitChecked s r (exact64 ((s.reg r).toInt + imm.toInt)) len := by
  rw [whenRunning_running hs, checkedImm, aluAdd, sext64_toInt]

/-- A register and immediate subtraction takes the immediate as a signed number (R67). -/
theorem checkedImm_aluSub (len : Nat) : whenRunning s (checkedImm s r imm len aluSub) =
    commitChecked s r (exact64 ((s.reg r).toInt - imm.toInt)) len := by
  rw [whenRunning_running hs, checkedImm, aluSub, sext64_toInt]

theorem exec_addi (hr : regOf rm = some r) :
    exec (.addi pre rm imm) s = commitChecked s r (exact64 ((s.reg r).toInt + imm.toInt)) (lengthWith pre 6) := by
  rw [exec, execAddi, withRegister_some hr, checkedImm_aluAdd hs]

theorem exec_subi (hr : regOf rm = some r) :
    exec (.subi pre rm imm) s = commitChecked s r (exact64 ((s.reg r).toInt - imm.toInt)) (lengthWith pre 6) := by
  rw [exec, execSubi, withRegister_some hr, checkedImm_aluSub hs]

theorem exec_adda :
    exec (.adda pre imm) s = commitChecked s .A (exact64 ((s.reg .A).toInt + imm.toInt)) (lengthWith pre 5) :=
  checkedImm_aluAdd hs _

theorem exec_suba :
    exec (.suba pre imm) s = commitChecked s .A (exact64 ((s.reg .A).toInt - imm.toInt)) (lengthWith pre 5) :=
  checkedImm_aluSub hs _

end AddSub

/-! ## The other two-register instructions -/

section Plain

variable {pre : Option Byte} {reg rm : BitVec 3} {q r : Reg} {s : State} (hs : s.status = .running)
  (hq : regOf reg = some q) (hr : regOf rm = some r)
include hs hq hr

theorem exec_xor :
    exec (.xor pre reg rm) s = .next (committed s r (s.reg r ^^^ s.reg q) (lengthWith pre 2)) :=
  plainOM_some hs hr hq _ aluXor

theorem exec_movMR : exec (.movMR pre reg rm) s = .next (committed s r (s.reg q) (lengthWith pre 2)) :=
  plainOM_some hs hr hq _ fun _ b => aluPass b

theorem exec_movRM : exec (.movRM pre reg rm) s = .next (committed s q (s.reg r) (lengthWith pre 2)) :=
  plainOM_some hs hq hr _ fun _ b => aluPass b

end Plain

end Sys2Proof.Machine
end

section
/-! SUPPORT. EXECUTE answers a next state wherever `STATUS` is `Running` (41_execute_common.md R110, R112), shown for each shared
operation and then for every instruction. -/

namespace Sys2Proof.Machine

section Answers

variable {s : State} (hs : s.status = .running)

theorem commitChecked_answers (s : State) (d : Reg) (v : Option Word) (len : Nat) :
    ∃ t, commitChecked s d v len = .next t := by
  cases v with
  | some w => exact ⟨_, rfl⟩
  | none => exact ⟨_, rfl⟩

/-- A register field answers, where what follows it does for every register: a code that names none is a fault (R120). -/
theorem withRegister_answers {k : Reg → Outcome} (hk : ∀ r, ∃ t, k r = .next t) (c : BitVec 3) :
    ∃ t, withRegister s c k = .next t := by
  cases hc : regOf c with
  | some r => exact withRegister_some hc k ▸ hk r
  | none => exact ⟨_, withRegister_none hc k⟩

include hs

theorem whenRunning_answers {k : Outcome} (hk : ∃ t, k = .next t) : ∃ t, whenRunning s k = .next t :=
  (whenRunning_running hs k).symm ▸ hk

theorem plainOM_answers (a b : BitVec 3) (len : Nat) (f : Word → Word → Word) : ∃ t, plainOM s a b len f = .next t :=
  whenRunning_answers hs (withRegister_answers (fun _ => withRegister_answers (fun _ => ⟨_, rfl⟩) b) a)

theorem checkedOM_answers (a b : BitVec 3) (len : Nat) (f : Word → Word → Option Word) :
    ∃ t, checkedOM s a b len f = .next t :=
  whenRunning_answers hs (withRegister_answers (fun _ => withRegister_answers (fun _ => commitChecked_answers ..) b) a)

/-- In `Running` every instruction answers a next state. -/
theorem exec_answers (i : Instr) : ∃ t, exec i s = .next t := by
  cases i with
  | w => exact whenRunning_answers hs ⟨_, rfl⟩
  | loadiA | loadiC | loadiD | loadiB | loadi64A | loadi64C | loadi64D | loadi64B => exact whenRunning_answers hs ⟨_, rfl⟩
  | movMR | movRM => exact plainOM_answers hs _ _ _ fun _ b => aluPass b
  | xor => exact plainOM_answers hs ..
  | add | sub => exact checkedOM_answers hs ..
  | addi | subi => exact whenRunning_answers hs (withRegister_answers (fun _ => commitChecked_answers ..) _)
  | adda | suba => exact whenRunning_answers hs (commitChecked_answers ..)
  | storei => exact whenRunning_answers hs (withRegister_answers (fun _ => ⟨_, rfl⟩) _)
  | reserved81s1 | reserved81s2 | reserved81s3 | reserved81s4 | reserved81s6 | reserved81s7 | reservedC7s1 | reservedC7s2
  | reservedC7s3 | reservedC7s4 | reservedC7s5 | reservedC7s6 | reservedC7s7 => exact whenRunning_answers hs ⟨_, rfl⟩

end Answers

end Sys2Proof.Machine
end

section
/-! SUPPORT. The exact result in bits (41_execute_common.md R114, R115): it is the wrapped one, and there is none exactly where the
library's signed-overflow test of 64-bit words says so. -/

namespace Sys2Proof.Machine

/-- An exact result, where there is one, is the integer's low 64 bits. -/
theorem exact64_eq_ofInt {z : Int} (h : exact64 z ≠ none) : exact64 z = some (BitVec.ofInt 64 z) := by
  unfold exact64 at h ⊢
  split
  · rfl
  · next hz => exact absurd (if_neg hz) h

theorem aluAdd_eq_wrapped {a b : Word} (h : aluAdd a b ≠ none) : aluAdd a b = some (a + b) := by
  have hwrap : BitVec.ofInt 64 (a.toInt + b.toInt) = a + b :=
    BitVec.eq_of_toInt_eq (by rw [BitVec.toInt_ofInt, BitVec.toInt_add])
  exact hwrap ▸ exact64_eq_ofInt h

theorem aluSub_eq_wrapped {a b : Word} (h : aluSub a b ≠ none) : aluSub a b = some (a - b) := by
  have hwrap : BitVec.ofInt 64 (a.toInt - b.toInt) = a - b :=
    BitVec.eq_of_toInt_eq (by rw [BitVec.toInt_ofInt, BitVec.toInt_sub])
  exact hwrap ▸ exact64_eq_ofInt h

theorem aluAdd_eq_none_iff_overflow {a b : Word} : aluAdd a b = none ↔ a.saddOverflow b = true := by
  rw [aluAdd, exact64_eq_none]
  simp only [BitVec.saddOverflow, Bool.or_eq_true, decide_eq_true_iff, min64, max64]
  omega

theorem aluSub_eq_none_iff_overflow {a b : Word} : aluSub a b = none ↔ a.ssubOverflow b = true := by
  rw [aluSub, exact64_eq_none]
  simp only [BitVec.ssubOverflow, Bool.or_eq_true, decide_eq_true_iff, min64, max64]
  omega

/-- The overflow signal of R114 is the absence of a result. -/
theorem addOverflowBits_iff {a b : Word} : addOverflowBits a b = true ↔ aluAdd a b = none := by
  rw [aluAdd_eq_none_iff_overflow, BitVec.saddOverflow_eq, addOverflowBits]
  rfl

/-- The overflow signal of R115 is the absence of a result. -/
theorem subOverflowBits_iff {a b : Word} : subOverflowBits a b = true ↔ aluSub a b = none := by
  rw [aluSub_eq_none_iff_overflow, BitVec.ssubOverflow_eq, subOverflowBits]
  cases a.msb <;> cases b.msb <;> simp

theorem addOverflowBits_iff_signs {a b : Word} :
    addOverflowBits a b = true ↔ a.getLsbD 63 = b.getLsbD 63 ∧ (a + b).getLsbD 63 ≠ a.getLsbD 63 := by
  simp only [addOverflowBits, BitVec.msb_eq_getLsbD_last, Nat.reduceSub, Bool.and_eq_true, beq_iff_eq, bne_iff_ne]

theorem subOverflowBits_iff_signs {a b : Word} :
    subOverflowBits a b = true ↔ a.getLsbD 63 ≠ b.getLsbD 63 ∧ (a - b).getLsbD 63 ≠ a.getLsbD 63 := by
  simp only [subOverflowBits, BitVec.msb_eq_getLsbD_last, Nat.reduceSub, Bool.and_eq_true, bne_iff_ne]

/-- The signed range of a word (R8). -/
theorem word_toInt_bounds (a : Word) : -(2 ^ 63) ≤ a.toInt ∧ a.toInt < 2 ^ 63 :=
  ⟨BitVec.le_toInt a, BitVec.toInt_lt⟩

end Sys2Proof.Machine
end

section
/-! SUPPORT. Which faults an EXECUTE can take (41_execute_common.md R111, R116, R122), and the frame of every answer. -/

namespace Sys2Proof.Machine

/-- An answer of EXECUTE has the frame of a completion or of a fault (R111). -/
theorem Executed.frame {d : Option Reg} {len : Nat} {s t : State} (h : Executed d len s t) :
    (∃ r v, d = some r ∧ Completed s t r v len) ∨ ∃ f, f ≠ .running ∧ FaultTaken s t f := by
  obtain ⟨r, v, hd, rfl⟩ | ⟨reason, rfl, -⟩ := h
  · exact .inl ⟨r, v, hd, committed_completed s r v len⟩
  · exact .inr ⟨.executeFault s.pc reason, nofun, takeFault_faultTaken s _⟩

/-- A record whose opcode is not mapped is read as such (R122). -/
theorem reading_unmapped {r : Record} (h : opcodeOf r.opcode = none) : r.reading = .unmapped := by
  simp only [Record.reading, h]

/-- An execute fault latches its own reason and no other (R223). -/
theorem raiseExecute_ne_fault {s : State} {reason other : ExecuteReason} {pos : Nat} (h : reason ≠ other) :
    (raiseExecute s reason).status ≠ .executeFault pos other := by
  rintro ⟨⟩
  exact h rfl

/-- A completion latches no fault (R111). -/
theorem committed_ne_fault {s : State} {d : Reg} {v : Word} {len pos : Nat} {reason : ExecuteReason}
    (hs : s.status = .running) : (committed s d v len).status ≠ .executeFault pos reason := by
  rw [committed_status, hs]
  nofun

section NoOverflow

variable {s t : State} (pos : Nat)

theorem loadRegister_no_overflow {d : Reg} {v : Word} {len : Nat} (h : loadRegister s d v len = .next t) :
    t.status ≠ .executeFault pos .arithmeticOverflow := by
  obtain ⟨hs, rfl⟩ := loadRegister_next h
  exact committed_ne_fault hs

theorem plainOM_no_overflow {a b : BitVec 3} {len : Nat} {f : Word → Word → Word} (h : plainOM s a b len f = .next t) :
    t.status ≠ .executeFault pos .arithmeticOverflow := by
  obtain ⟨hs, ⟨d, r, -, -, rfl⟩ | ⟨-, rfl⟩⟩ := plainOM_next h
  · exact committed_ne_fault hs
  · exact raiseExecute_ne_fault nofun

theorem unsupportedSubOpcode_no_overflow (h : unsupportedSubOpcode s = .next t) :
    t.status ≠ .executeFault pos .arithmeticOverflow := by
  obtain ⟨-, rfl⟩ := unsupportedSubOpcode_next h
  exact raiseExecute_ne_fault nofun

theorem execStorei_no_overflow {pre : Option Byte} {rm : BitVec 3} {imm : BitVec 32}
    (h : execStorei pre rm imm s = .next t) : t.status ≠ .executeFault pos .arithmeticOverflow := by
  obtain ⟨hs, h⟩ := whenRunning_next h
  obtain ⟨d, -, h⟩ | ⟨-, rfl⟩ := withRegister_next h
  · obtain rfl := commit_next h
    exact committed_ne_fault hs
  · exact raiseExecute_ne_fault nofun

end NoOverflow

/-- The six add and subtract instructions, which alone have an overflow check (R116). -/
inductive OverflowChecked : Instr → Prop where
  | add (pre : Option Byte) (reg rm : BitVec 3) : OverflowChecked (.add pre reg rm)
  | sub (pre : Option Byte) (reg rm : BitVec 3) : OverflowChecked (.sub pre reg rm)
  | addi (pre : Option Byte) (rm : BitVec 3) (imm : BitVec 32) : OverflowChecked (.addi pre rm imm)
  | subi (pre : Option Byte) (rm : BitVec 3) (imm : BitVec 32) : OverflowChecked (.subi pre rm imm)
  | adda (pre : Option Byte) (imm : BitVec 32) : OverflowChecked (.adda pre imm)
  | suba (pre : Option Byte) (imm : BitVec 32) : OverflowChecked (.suba pre imm)

/-- No instruction without an overflow check takes `ArithmeticOverflow` (R116). -/
theorem overflowChecked_of_overflow {i : Instr} {s t : State} {pos : Nat} (h : exec i s = .next t)
    (hf : t.status = .executeFault pos .arithmeticOverflow) : OverflowChecked i := by
  cases i with
  | add => exact .add ..
  | sub => exact .sub ..
  | addi => exact .addi ..
  | subi => exact .subi ..
  | adda => exact .adda ..
  | suba => exact .suba ..
  | w => rw [exec_w_next h] at hf; cases hf
  | loadiA | loadiC | loadiD | loadiB | loadi64A | loadi64C | loadi64D | loadi64B =>
    exact absurd hf (loadRegister_no_overflow pos h)
  | movMR | movRM => exact absurd hf (plainOM_no_overflow (f := fun _ b => aluPass b) pos h)
  | xor => exact absurd hf (plainOM_no_overflow pos h)
  | storei => exact absurd hf (execStorei_no_overflow pos h)
  | reserved81s1 | reserved81s2 | reserved81s3 | reserved81s4 | reserved81s6 | reserved81s7 | reservedC7s1 | reservedC7s2
  | reservedC7s3 | reservedC7s4 | reservedC7s5 | reservedC7s6 | reservedC7s7 =>
    exact absurd hf (unsupportedSubOpcode_no_overflow pos h)

end Sys2Proof.Machine
end

section
/-! CERTIFICATES of the statements about EXECUTE in common (41_execute_common.md). -/

namespace Sys2Proof.Machine

/-- Settles O12, from the answer of each shared operation. -/
theorem everyInstructionAnswersInRunning : Obligations.EveryInstructionAnswersInRunning :=
  fun i _ => ⟨fun ⟨_, h⟩ => running_of_exec_next h, fun hs => exec_answers hs i⟩

/-- Settles O22: the frame of every answer, and the operand rules with source and destination one register. -/
theorem executeCommitsAllOrNothing : Obligations.ExecuteCommitsAllOrNothing := by
  refine ⟨fun i s t h => ?_, fun pre c d s t hc ht => ⟨fun h => ?_, fun h => ?_, fun h => ?_, ?_⟩⟩
  · cases hr : i.record with
    | some r => exact (exec_next hr h).frame
    | none =>
      obtain ⟨p, nxt, rfl⟩ := record_eq_none.1 hr
      obtain rfl := exec_w_next h
      exact .inr ⟨.decodeFault (s.cursor + 1) .unknownOpcode, nofun, takeFault_faultTaken s _⟩
  · have hs := running_of_exec_next h
    exact toInt_of_commitChecked_exact64 ((exec_add hs hc hc).symm.trans h) ht
  · have hs := running_of_exec_next h
    exact toInt_of_commitChecked_exact64 ((exec_sub hs hc hc).symm.trans h) ht
  · have hs := running_of_exec_next h
    cases (exec_xor hs hc hc).symm.trans h
    exact regs_get_set_same ..
  · rintro (h | h)
    · have hs := running_of_exec_next h
      cases (exec_movMR hs hc hc).symm.trans h
      exact regs_get_set_same ..
    · have hs := running_of_exec_next h
      cases (exec_movRM hs hc hc).symm.trans h
      exact regs_get_set_same ..

/-- Settles O40: each of the six is the checked commit of its exact result, and no other instruction has that check. -/
theorem overflowFaultsAndNeverWraps : Obligations.OverflowFaultsAndNeverWraps := by
  refine ⟨fun pre reg rm q r s hs hq hr => ⟨fun hout => ?_, fun hout => ?_⟩,
    fun pre rm imm r s hs hr => ⟨fun hout => ?_, fun hout => ?_⟩,
    fun pre imm s hs => ⟨fun hout => ?_, fun hout => ?_⟩, fun i s t pos h hf => ?_⟩
  · rw [exec_add hs hq hr]
    exact commitChecked_exact64_faults s r _ hout
  · rw [exec_sub hs hq hr]
    exact commitChecked_exact64_faults s r _ hout
  · rw [exec_addi hs hr]
    exact commitChecked_exact64_faults s r _ hout
  · rw [exec_subi hs hr]
    exact commitChecked_exact64_faults s r _ hout
  · rw [exec_adda hs]
    exact commitChecked_exact64_faults s .A _ hout
  · rw [exec_suba hs]
    exact commitChecked_exact64_faults s .A _ hout
  · cases overflowChecked_of_overflow h hf with
    | add => exact .inl ⟨_, _, _, rfl⟩
    | sub => exact .inr (.inl ⟨_, _, _, rfl⟩)
    | addi => exact .inr (.inr (.inl ⟨_, _, _, rfl⟩))
    | subi => exact .inr (.inr (.inr (.inl ⟨_, _, _, rfl⟩)))
    | adda => exact .inr (.inr (.inr (.inr (.inl ⟨_, _, rfl⟩))))
    | suba => exact .inr (.inr (.inr (.inr (.inr ⟨_, _, rfl⟩))))

/-- Settles O41, through the overflow signal in bits. -/
theorem addIsExactAndMatchesTheBitFormula : Obligations.AddIsExactAndMatchesTheBitFormula := by
  intro a b
  have ha := word_toInt_bounds a
  have hb := word_toInt_bounds b
  exact ⟨by omega, fun w => exact64_eq_some, addOverflowBits_iff.symm.trans addOverflowBits_iff_signs,
    addOverflowBits_iff, aluAdd_eq_wrapped⟩

/-- Settles O42, through the overflow signal in bits. -/
theorem subIsExactAndMatchesTheBitFormula : Obligations.SubIsExactAndMatchesTheBitFormula := by
  intro a b
  have ha := word_toInt_bounds a
  have hb := word_toInt_bounds b
  exact ⟨by omega, fun w => exact64_eq_some, subOverflowBits_iff.symm.trans subOverflowBits_iff_signs,
    subOverflowBits_iff, aluSub_eq_wrapped⟩

/-- Settles O50: a step's execute fault comes from an instruction with a record, which never raises `UnknownOpcode`. -/
theorem unmappedRecordFaultsAndNoStepDoes : Obligations.UnmappedRecordFaultsAndNoStepDoes := by
  refine ⟨fun r s hs hop => ⟨raiseExecute s .unknownOpcode, ?_, takeFault_faultTaken s _⟩, fun s t pos h => ?_⟩
  · rw [executeRecord, whenRunning_running hs, reading_unmapped hop]
  · obtain ⟨hs, -⟩ := step_next h
    obtain ⟨i, r, -, -, ⟨d, v, -, rfl⟩ | ⟨reason, rfl, hreason⟩⟩ | ⟨off, reason, rfl⟩ := step_next_cases h
    · exact committed_ne_fault hs
    · exact raiseExecute_ne_fault hreason
    · nofun

end Sys2Proof.Machine
end

section
/-! CERTIFICATES of the statements about the completions of ADD, SUB, XOR, ADDI and SUBI (44_reg_add_sub.md, 45_group1_imm32.md,
48_xor.md). -/

namespace Sys2Proof.Machine

/-- Settles O30: ADD is the checked commit of the exact sum. -/
theorem addCompletes : Obligations.AddCompletes := by
  intro pre reg rm q r s hs hq hr hlo hhi
  rw [exec_add hs hq hr]
  exact commitChecked_exact64_completes s r _ hlo hhi

/-- Settles O31: SUB is the checked commit of the exact difference. -/
theorem subCompletes : Obligations.SubCompletes := by
  intro pre reg rm q r s hs hq hr hlo hhi
  rw [exec_sub hs hq hr]
  exact commitChecked_exact64_completes s r _ hlo hhi

/-- Settles O32: XOR commits the exclusive or of the two words, which is bit by bit. -/
theorem xorCompletes : Obligations.XorCompletes :=
  fun _ _ _ q r s hs hq hr => ⟨_, s.reg r ^^^ s.reg q, exec_xor hs hq hr, fun _ => BitVec.getLsbD_xor,
    committed_completed s r _ _⟩

/-- Settles O33: both are the checked commit of the exact result with the signed immediate. -/
theorem addiSubiComplete : Obligations.AddiSubiComplete := by
  refine fun pre rm imm r s hs hr => ⟨fun hlo hhi => ?_, fun hlo hhi => ?_⟩
  · rw [exec_addi hs hr]
    exact commitChecked_exact64_completes s r _ hlo hhi
  · rw [exec_subi hs hr]
    exact commitChecked_exact64_completes s r _ hlo hhi

end Sys2Proof.Machine
end

section
/-! SUPPORT. The immediate loads (42_load_immediate.md): what their bytes decode to, the number their little-endian bytes denote,
and the one commit that each of the eight instructions is. -/

namespace Sys2Proof

/-- Format `OI` on the bytes after its opcode: an imm64 after a prefix, else an imm32 (R71, R95). -/
theorem decode_oi {pre : Option Byte} (h : prefixOk pre = true) (d : Reg) (bs : List Byte) :
    decode (pre.toList ++ (Opcode.oi d).byte :: bs) = decodeOI pre d (pre.toList.length + 1) bs :=
  (decode_before_opcode pre (.oi d) bs h).trans (decodeOpcode_byte ..)

/-- A prefixed load with fewer than eight bytes left for its immediate is refused at the first of them (R43, R95). -/
theorem decode_loadi64_truncated {p : Byte} (hp : isPrefix p = true) (d : Reg) {bs : List Byte} (hlen : bs.length < 8) :
    decode (p :: (Opcode.oi d).byte :: bs) = .fault 2 .truncatedImmediate := by
  have hoi : decode (p :: (Opcode.oi d).byte :: bs) = decodeOI (some p) d 2 bs := decode_oi (pre := some p) hp d bs
  rw [hoi, decodeOI, readImm64_eq_none.2 hlen]

/-- The last byte of a word counts once, and the bytes before it 2^8 times (R42). -/
theorem toNat_append_byte {n : Nat} (x : BitVec n) (b : Byte) : (x ++ b).toNat = b.toNat + 2 ^ 8 * x.toNat := by
  rw [BitVec.toNat_append, ← Nat.shiftLeft_add_eq_or_of_lt b.isLt, Nat.shiftLeft_eq]
  omega

end Sys2Proof

namespace Sys2Proof.Machine

section Loads

variable {s : State} (hs : s.status = .running)
include hs

/-- A load of an implied register completes in `Running` (R130). -/
theorem loadRegister_completes (d : Reg) (v : Word) (len : Nat) :
    ∃ t, loadRegister s d v len = .next t ∧ Completed s t d v len :=
  ⟨_, whenRunning_running hs _, committed_completed s d v len⟩

/-- The four 32-bit loads are one load of the sign-extended immediate (R131 to R134). -/
theorem exec_loadiOf_completes (d : Reg) (imm : BitVec 32) :
    ∃ t, exec (loadiOf d imm) s = .next t ∧ Completed s t d (sext64 imm) 5 := by
  cases d <;> exact loadRegister_completes hs _ (sext64 imm) 5

/-- The four 64-bit loads are one load of the raw immediate (R135 to R138). -/
theorem exec_loadi64Of_completes (p : Byte) (d : Reg) (imm : BitVec 64) :
    ∃ t, exec (loadi64Of p d imm) s = .next t ∧ Completed s t d imm 10 := by
  cases d <;> exact loadRegister_completes hs _ imm 10

end Loads

end Sys2Proof.Machine
end

section
/-! CERTIFICATES of the statements about the immediate loads (42_load_immediate.md). -/

namespace Sys2Proof.Machine

/-- Settles O25: format `OI` without prefix, the load of A, and the corner cases by evaluation. -/
theorem loadiALoadsTheSignExtendedImmediate : Obligations.LoadiALoadsTheSignExtendedImmediate := by
  refine ⟨fun i0 i1 i2 i3 rest => ⟨i3 ++ i2 ++ i1 ++ i0, decode_oi (pre := none) rfl .A _, ?_⟩,
    fun imm _ hs => exec_loadiOf_completes hs .A imm, by decide, by decide, by decide, by decide, by decide⟩
  simp only [toNat_append_byte]
  omega

/-- Settles O26: format `OI` with a prefix, the load of A, and three bytes at most behind the four of a short immediate. -/
theorem loadi64ALoadsTheRawImmediate : Obligations.Loadi64ALoadsTheRawImmediate := by
  refine ⟨isPrefix_48, fun p i0 i1 i2 i3 i4 i5 i6 i7 rest hp =>
      ⟨i7 ++ i6 ++ i5 ++ i4 ++ i3 ++ i2 ++ i1 ++ i0, decode_oi (pre := some p) hp .A _, ?_⟩,
    fun p imm _ hs => exec_loadi64Of_completes hs p .A imm,
    fun tail hlen => ⟨2, decode_loadi64_truncated isPrefix_48 .A ?_⟩⟩
  · simp only [toNat_append_byte]
    omega
  · simp only [List.length_cons]
    omega

/-- Settles O27: each is the load of its register. -/
theorem loadImmediate32Completes : Obligations.LoadImmediate32Completes :=
  fun imm _ hs => ⟨exec_loadiOf_completes hs .A imm, exec_loadiOf_completes hs .C imm, exec_loadiOf_completes hs .D imm,
    exec_loadiOf_completes hs .B imm⟩

/-- Settles O28: each is the load of its register, whatever the prefix byte. -/
theorem loadImmediate64Completes : Obligations.LoadImmediate64Completes :=
  fun p imm _ hs => ⟨exec_loadi64Of_completes hs p .A imm, exec_loadi64Of_completes hs p .C imm,
    exec_loadi64Of_completes hs p .D imm, exec_loadi64Of_completes hs p .B imm⟩

end Sys2Proof.Machine
end

section
/-! SUPPORT. The fault of a reserved sub-selector (41_execute_common.md R121), shared by the reserved rows of opcodes 81 and C7, and
the rows of opcode 81 that are it (45_group1_imm32.md R162). -/

namespace Sys2Proof.Machine

/-- In `Running` a reserved sub-selector takes `UnsupportedSubOpcode` at `pc`, with the frame of a fault (R121, R223). -/
theorem unsupportedSubOpcode_faults {s : State} (hs : s.status = .running) :
    ∃ t, unsupportedSubOpcode s = .next t ∧ FaultTaken s t (.executeFault s.pc .unsupportedSubOpcode) :=
  ⟨raiseExecute s .unsupportedSubOpcode, whenRunning_running hs _, takeFault_faultTaken s _⟩

/-- The reserved rows of opcode 81 take the reserved sub-selector's fault, whatever the register code (R162, D18). -/
theorem exec_reserved81 {pre : Option Byte} {rm : BitVec 3} {imm : BitVec 32} {i : Instr} (s : State)
    (hi : i ∈ [Instr.reserved81s1 pre rm imm, .reserved81s2 pre rm imm, .reserved81s3 pre rm imm,
      .reserved81s4 pre rm imm, .reserved81s6 pre rm imm, .reserved81s7 pre rm imm]) :
    exec i s = unsupportedSubOpcode s := by
  simp only [List.mem_cons, List.not_mem_nil, or_false] at hi
  obtain rfl | rfl | rfl | rfl | rfl | rfl := hi <;> rfl

end Sys2Proof.Machine
end

section
/-! CERTIFICATE of the statement about the reserved rows of opcode 81 (45_group1_imm32.md). -/

namespace Sys2Proof.Machine

/-- Settles O36: every reserved row is the one fault of a reserved sub-selector. -/
theorem reservedGroup1Faults : Obligations.ReservedGroup1Faults := by
  intro pre rm imm s hs i hi
  rw [exec_reserved81 s hi]
  exact unsupportedSubOpcode_faults hs

end Sys2Proof.Machine
end

section
/-! CERTIFICATE of the statement about the accumulator forms (46_accumulator_imm32.md). -/

namespace Sys2Proof.Machine

/-- Settles O34: both are the checked commit, on A, of the exact result with the signed immediate (R170, R171). -/
theorem addaSubaComplete : Obligations.AddaSubaComplete := by
  refine fun pre imm s hs => ⟨fun hlo hhi => ?_, fun hlo hhi => ?_⟩
  · rw [exec_adda hs]
    exact commitChecked_exact64_completes s .A _ hlo hhi
  · rw [exec_suba hs]
    exact commitChecked_exact64_completes s .A _ hlo hhi

end Sys2Proof.Machine
end

section
/-! SUPPORT. The reserved rows of opcode C7 are the fault of a reserved sub-selector (47_store_immediate.md R181). -/

namespace Sys2Proof.Machine

/-- The reserved rows of opcode C7 take the reserved sub-selector's fault, whatever the register code (R181, D18). -/
theorem exec_reservedC7 {pre : Option Byte} {rm : BitVec 3} {imm : BitVec 32} {i : Instr} (s : State)
    (hi : i ∈ [Instr.reservedC7s1 pre rm imm, .reservedC7s2 pre rm imm, .reservedC7s3 pre rm imm,
      .reservedC7s4 pre rm imm, .reservedC7s5 pre rm imm, .reservedC7s6 pre rm imm, .reservedC7s7 pre rm imm]) :
    exec i s = unsupportedSubOpcode s := by
  simp only [List.mem_cons, List.not_mem_nil, or_false] at hi
  obtain rfl | rfl | rfl | rfl | rfl | rfl | rfl := hi <;> rfl

end Sys2Proof.Machine
end

section
/-! CERTIFICATE of the statement about the reserved rows of opcode C7 (47_store_immediate.md). -/

namespace Sys2Proof.Machine

/-- Settles O37: every reserved row is the one fault of a reserved sub-selector. -/
theorem reservedStoreFaults : Obligations.ReservedStoreFaults := by
  intro pre rm imm s hs i hi
  rw [exec_reservedC7 s hi]
  exact unsupportedSubOpcode_faults hs

end Sys2Proof.Machine
end

section
/-! SUPPORT. The step where it answers and where it stops (49_run_result_host.md R200, R201), and the lockstep invariant along a
run (R202). -/

namespace Sys2Proof.Machine

section Stops

variable {s : State} (hs : s.status = .running)

include hs

/-- With bytes left, bytes that are no instruction are a decode fault taken as the next state (R98, R200). -/
theorem step_of_decode_fault (hc : s.cursor < s.buf.size) {off : Nat} {reason : DecodeReason}
    (hd : decode (window s) = .fault off reason) : step s = .next (raiseDecode s (s.cursor + off) reason) := by
  have hm : hasMore s = true := decide_eq_true hc
  simp [step, runOnce, hs, hm, decodeNext_fault hs hd]

/-- With bytes left, a step answers a next state. -/
theorem step_answers (hc : s.cursor < s.buf.size) : ∃ t, step s = .next t := by
  cases hd : decode (window s) with
  | instr i =>
    obtain ⟨t, ht⟩ := exec_answers (s := advanceCursor s i.length) hs i
    exact ⟨t, (runOnce_instr hs hc hd).trans ht⟩
  | fault off reason => exact ⟨_, step_of_decode_fault hs hc hd⟩

/-- The normal end of a run has no step (R201). -/
theorem step_exhausted (hc : s.buf.size ≤ s.cursor) : step s = .fault .exhausted := by
  have hm : hasMore s = false := decide_eq_false (Nat.not_lt.2 hc)
  simp [step, runOnce, hs, hm]

end Stops

/-- A step answers a next state, or is one of the two stops; it never refuses. -/
theorem step_next_or_fault (s : State) : (∃ t, step s = .next t) ∨ ∃ f, step s = .fault f := by
  by_cases hs : s.status = .running
  · obtain hc | hc := Nat.lt_or_ge s.cursor s.buf.size
    · exact .inl (step_answers hs hc)
    · exact .inr ⟨_, step_exhausted hs hc⟩
  · exact .inr ⟨_, step_stopped hs⟩

/-- Nothing writes the buffer (R41, R51). -/
theorem step_buf {s t : State} (h : step s = .next t) : t.buf = s.buf := by
  obtain ⟨i, r, -, -, ⟨d, v, -, rfl⟩ | ⟨reason, rfl, -⟩⟩ | ⟨off, reason, rfl⟩ := step_next_cases h <;> rfl

/-- A step that leaves `STATUS` Running moves the cursor by 2 bytes or more (R201). -/
theorem step_cursor_advances {s t : State} (h : step s = .next t) (ht : t.status = .running) :
    s.cursor + 2 ≤ t.cursor := by
  obtain ⟨i, r, -, hr, ⟨d, v, -, rfl⟩ | ⟨reason, rfl, -⟩⟩ | ⟨off, reason, rfl⟩ := step_next_cases h
  · have hlen := Instr.length_eq_encode_length hr
    have hpos := (encode_length_bounds i).1
    simp only [committed_cursor, advanceCursor_cursor]
    omega
  · cases ht
  · cases ht

/-- A state of a run that is still `Running` has its two counters equal (R202). -/
theorem Lockstep.pc_eq_cursor {s : State} (h : Lockstep s) (hs : s.status = .running) : s.pc = s.cursor := by
  obtain ⟨-, -, ⟨-, hpc⟩ | ⟨off, reason, hf, -⟩ | ⟨⟨reason, hf, -⟩, -⟩⟩ := h
  · exact hpc
  · cases hs.symm.trans hf
  · cases hs.symm.trans hf

/-- Every reset starts a run in lockstep (R250). -/
theorem lockstep_resetOnto {m : Memory} (hm : m.wf) : Lockstep (resetOnto m) :=
  ⟨hm, Nat.zero_le _, .inl ⟨rfl, rfl⟩⟩

/-- A decode fault is at no offset before the cursor (R96, R202). -/
theorem DecodeFaultPlace.cursor_le {s : State} {pos : Nat} {reason : DecodeReason} (h : DecodeFaultPlace s pos reason) :
    s.cursor ≤ pos := by
  have hle : s.cursor ≤ opcodeOffset s := (opcodeOffset_eq s).symm ▸ Nat.le_add_right _ _
  cases h <;> omega

/-- Every step keeps the lockstep invariant (R202): a completed instruction moves both counters by its length, a fault leaves
`pc`. -/
theorem step_keeps_lockstep {s t : State} (hlock : Lockstep s) (hstep : step s = .next t) : Lockstep t := by
  obtain ⟨hs, hc, -⟩ := step_next hstep
  have hpc : s.pc = s.cursor := hlock.pc_eq_cursor hs
  refine ⟨step_buf hstep ▸ hlock.1, ?_⟩
  obtain ⟨i, r, hd, hr, hx⟩ | ⟨off, reason, rfl⟩ := step_next_cases hstep
  · have hlen := Instr.length_eq_encode_length hr
    have hfits : s.cursor + i.length ≤ s.buf.size := hlen ▸ decode_window_fits hc hd
    have hbounds : 2 ≤ i.length ∧ i.length ≤ maxLength := hlen ▸ encode_length_bounds i
    obtain ⟨d, v, -, rfl⟩ | ⟨reason, rfl, hreason⟩ := hx
    · exact ⟨hfits, .inl ⟨hs, congrArg (· + i.length) hpc⟩⟩
    · refine ⟨hfits, .inr (.inr ⟨⟨reason, rfl, ?_, ?_, hfits⟩, by simpa using hreason⟩)⟩
      all_goals
        simp only [raiseExecute_pc, raiseExecute_cursor, advanceCursor_pc, advanceCursor_cursor]
        omega
  · obtain ⟨pos, reason', heq, hplace⟩ := decodeNext_faultPlace hc.le (decodeNext_of_step_decodeFault hstep rfl).2
    rw [heq]
    exact ⟨hc.le, .inr (.inl ⟨pos, reason', rfl, hpc, hpc.trans_le hplace.cursor_le, hplace.le_size⟩)⟩

/-- A run that has no next step is in one of the three ends (R201). -/
theorem Lockstep.ended {s : State} {f : Fault} (h : Lockstep s) (hf : step s = .fault f) :
    EndedNormally s ∨ EndedInDecodeFault s ∨ EndedInExecuteFault s := by
  obtain ⟨-, hc, ⟨hs, hpc⟩ | hdecode | ⟨hexec, -⟩⟩ := h
  · have hend : s.cursor = s.buf.size := by
      by_contra hne
      obtain ⟨t, ht⟩ := step_answers hs (Nat.lt_of_le_of_ne hc hne)
      cases hf.symm.trans ht
    exact .inl ⟨hs, hpc.trans hend, hend⟩
  · exact .inr (.inl hdecode)
  · exact .inr (.inr hexec)

/-! ## The fuelled run -/

theorem runFuel_succ_of_next {s t : State} (h : step s = .next t) (n : Nat) : runFuel (n + 1) s = runFuel n t := by
  simp [runFuel, h]

theorem runFuel_of_fault {s : State} {f : Fault} (h : step s = .fault f) (n : Nat) : runFuel n s = s := by
  cases n with
  | zero => rfl
  | succ n => simp [runFuel, h]

/-- What every step keeps, a run keeps. -/
theorem runFuel_keeps {P : State → Prop} (hstep : ∀ s t, P s → step s = .next t → P t) (n : Nat) {s : State}
    (h : P s) : P (runFuel n s) := by
  induction n generalizing s with
  | zero => exact h
  | succ n ih =>
    obtain ⟨t, ht⟩ | ⟨f, hf⟩ := step_next_or_fault s
    · rw [runFuel_succ_of_next ht]
      exact ih (hstep s t h ht)
    · rwa [runFuel_of_fault hf]

/-- More steps than bytes are left are enough to reach a state without a step (R201). -/
theorem runFuel_ends {n : Nat} {s : State} (h : s.status = .running → s.buf.size - s.cursor < n) :
    ∃ f, step (runFuel n s) = .fault f := by
  induction n generalizing s with
  | zero => exact ⟨_, step_stopped fun hs => Nat.not_lt_zero _ (h hs)⟩
  | succ n ih =>
    obtain ⟨t, ht⟩ | ⟨f, hf⟩ := step_next_or_fault s
    · rw [runFuel_succ_of_next ht]
      refine ih fun hrun => ?_
      obtain ⟨hs, hc, -⟩ := step_next ht
      have hadv := step_cursor_advances ht hrun
      have hleft := h hs
      rw [step_buf ht]
      omega
    · rw [runFuel_of_fault hf]
      exact ⟨f, hf⟩

end Sys2Proof.Machine
end

section
/-! SUPPORT. LOAD_HEX on the text's characters (49_run_result_host.md R210 to R213). -/

namespace Sys2Proof.Machine

/-! ## Characters -/

theorem hexDigit_hexChar {v : Nat} (h : v < 16) : hexDigit (hexChar v) = some v := by
  revert v; decide

theorem isSpace_hexChar {v : Nat} (h : v < 16) : isSpace (hexChar v) = false := by
  revert v; decide

/-- Lower case moves the 26 upper-case letters up by 32, and nothing else. -/
theorem toNat_toLower (ch : Char) :
    ch.toLower.toNat = if 65 ≤ ch.toNat ∧ ch.toNat ≤ 90 then ch.toNat + 32 else ch.toNat := by
  have hiff : ch.isUpper = true ↔ 65 ≤ ch.toNat ∧ ch.toNat ≤ 90 := by
    simp [Char.isUpper, UInt32.le_iff_toNat_le]
  by_cases hup : ch.isUpper = true
  · have hrange := hiff.1 hup
    rw [if_pos hrange, Char.toLower_eq_of_isUpper hup]
    exact (Char.toNat_ofNat _).trans (if_pos (.inl (by omega)))
  · rw [if_neg (mt hiff.2 hup), Char.toLower_eq_of_not_isUpper hup]

/-- The letters of R210 have one value in both cases; a letter past `F` has none in either. -/
@[simp] theorem hexDigit_toLower (ch : Char) : hexDigit ch.toLower = hexDigit ch := by
  simp only [hexDigit, toNat_toLower]
  by_cases hupper : 65 ≤ ch.toNat ∧ ch.toNat ≤ 90
  · rw [if_pos hupper, if_neg (by omega), if_neg (c := 48 ≤ ch.toNat ∧ ch.toNat ≤ 57) (by omega),
      if_neg (c := 97 ≤ ch.toNat ∧ ch.toNat ≤ 102) (by omega)]
    by_cases hF : ch.toNat ≤ 70
    · rw [if_pos (by omega), if_pos (by omega), Option.some_inj]
      omega
    · rw [if_neg (by omega), if_neg (by omega), if_neg (by omega)]
  · rw [if_neg hupper]

@[simp] theorem isSpace_toLower (ch : Char) : isSpace ch.toLower = isSpace ch := by
  simp only [isSpace, toNat_toLower]
  split
  · next hupper => rw [beq_eq_false_iff_ne.2 (by omega), beq_eq_false_iff_ne.2 (by omega)]
  · rfl

/-! ## Digits and pairs -/

/-- A text has digits exactly if every character is a hex digit (R211). -/
theorem exists_hexDigits_iff {cs : List Char} :
    (∃ vs, hexDigits cs = some vs) ↔ ∀ ch ∈ cs, (hexDigit ch).isSome = true := by
  induction cs with
  | nil => simp [hexDigits]
  | cons ch cs ih =>
    rw [List.forall_mem_cons, ← ih]
    cases hd : hexDigit ch with
    | none => simp [hexDigits, hd]
    | some v => cases hds : hexDigits cs <;> simp [hexDigits, hd, hds]

/-- One digit for every character. -/
theorem length_of_hexDigits {cs : List Char} {vs : List Nat} (h : hexDigits cs = some vs) : vs.length = cs.length := by
  induction cs generalizing vs with
  | nil => cases h; rfl
  | cons ch cs ih =>
    simp only [hexDigits] at h
    split at h
    · next v vs' hd hds => cases h; simp [ih hds]
    · cases h

theorem hexDigits_map_toLower (cs : List Char) : hexDigits (cs.map Char.toLower) = hexDigits cs := by
  induction cs with
  | nil => rfl
  | cons ch cs ih => simp [hexDigits, ih]

/-- Digits make bytes exactly if their number is even (R211). -/
theorem exists_pairBytes_iff {vs : List Nat} : (∃ bs, pairBytes vs = some bs) ↔ vs.length % 2 = 0 := by
  induction vs using pairBytes.induct with
  | case1 => simp [pairBytes]
  | case2 v => simp [pairBytes]
  | case3 hi lo vs bs hbs ih => simpa [pairBytes, hbs, Nat.add_assoc] using ih
  | case4 hi lo vs hnone ih => simpa [pairBytes, hnone, Nat.add_assoc] using ih

/-- Two digits for every byte (R210). -/
theorem length_of_pairBytes {vs : List Nat} {bs : List Byte} (h : pairBytes vs = some bs) : 2 * bs.length = vs.length := by
  induction vs using pairBytes.induct generalizing bs with
  | case1 => cases h; rfl
  | case2 v => cases h
  | case3 hi lo vs bs' hbs ih =>
    simp only [pairBytes, hbs, Option.some.injEq] at h
    have hlen := ih hbs
    rw [← h, List.length_cons, List.length_cons, List.length_cons]
    omega
  | case4 hi lo vs hnone ih => simp [pairBytes, hnone] at h

/-! ## Texts -/

/-- The characters of a text that LOAD_HEX looks at (R211). -/
def withoutSpaces (text : List Char) : List Char := text.filter fun ch => !isSpace ch

/-- LOAD_HEX reads digits, then pairs them (R211). -/
theorem loadHex_eq (text : List Char) : loadHex text = (hexDigits (withoutSpaces text)).bind pairBytes := by
  unfold loadHex withoutSpaces
  cases hexDigits (text.filter fun ch => !isSpace ch) <;> rfl

theorem loadHex_eq_some {text : List Char} {bs : List Byte} :
    loadHex text = some bs ↔ ∃ vs, hexDigits (withoutSpaces text) = some vs ∧ pairBytes vs = some bs := by
  rw [loadHex_eq, Option.bind_eq_some_iff]

/-- What is left of a text has digits exactly if every character of the text is a space or a hex digit (R210, R211). -/
theorem exists_hexDigits_withoutSpaces_iff {text : List Char} :
    (∃ vs, hexDigits (withoutSpaces text) = some vs) ↔
      ∀ ch ∈ text, isSpace ch = true ∨ (hexDigit ch).isSome = true := by
  simp only [exists_hexDigits_iff, withoutSpaces, List.mem_filter, Bool.not_eq_true', and_imp, or_iff_not_imp_left,
    Bool.not_eq_true]

theorem withoutSpaces_map_toLower (text : List Char) :
    withoutSpaces (text.map Char.toLower) = (withoutSpaces text).map Char.toLower := by
  simp [withoutSpaces, List.filter_map, Function.comp_def]

theorem withoutSpaces_withoutSpaces (text : List Char) : withoutSpaces (withoutSpaces text) = withoutSpaces text := by
  simp [withoutSpaces]

/-- A space is skipped (R211). -/
theorem loadHex_space_cons (text : List Char) : loadHex (' ' :: text) = loadHex text := rfl

/-- The two characters of a byte are no spaces. -/
theorem withoutSpaces_hexPair_append (b : Byte) (text : List Char) :
    withoutSpaces (hexPair b ++ text) = hexPair b ++ withoutSpaces text := by
  have hhi : isSpace (hexChar (b.toNat / 16)) = false := isSpace_hexChar (by omega)
  have hlo : isSpace (hexChar (b.toNat % 16)) = false := isSpace_hexChar (by omega)
  simp [withoutSpaces, hexPair, hhi, hlo]

/-- The two characters of a byte are read as its two digits. -/
theorem hexDigits_hexPair_append (b : Byte) (cs : List Char) :
    hexDigits (hexPair b ++ cs) = (hexDigits cs).map fun vs => b.toNat / 16 :: b.toNat % 16 :: vs := by
  have hhi : hexDigit (hexChar (b.toNat / 16)) = some (b.toNat / 16) := hexDigit_hexChar (by omega)
  have hlo : hexDigit (hexChar (b.toNat % 16)) = some (b.toNat % 16) := hexDigit_hexChar (by omega)
  cases hds : hexDigits cs <;> simp [hexPair, hexDigits, hhi, hlo, hds]

/-- The two digits of a byte make that byte again. -/
theorem pairBytes_byte_cons (b : Byte) (vs : List Nat) :
    pairBytes (b.toNat / 16 :: b.toNat % 16 :: vs) = (pairBytes vs).map (b :: ·) := by
  have hb : BitVec.ofNat 8 (16 * (b.toNat / 16) + b.toNat % 16) = b := by
    rw [Nat.div_add_mod, BitVec.ofNat_toNat, BitVec.setWidth_eq]
  cases hvs : pairBytes vs <;> simp [pairBytes, hvs, hb]

/-- A text that begins with the two characters of a byte loads to that byte, then what the rest loads to (R210, R213). -/
theorem loadHex_hexPair_append (b : Byte) (text : List Char) :
    loadHex (hexPair b ++ text) = (loadHex text).map (b :: ·) := by
  rw [loadHex_eq, loadHex_eq, withoutSpaces_hexPair_append, hexDigits_hexPair_append]
  cases hexDigits (withoutSpaces text) with
  | none => rfl
  | some vs => exact pairBytes_byte_cons b vs

end Sys2Proof.Machine
end

section
/-! CERTIFICATES of the statements about the run and the hex loader (49_run_result_host.md). -/

namespace Sys2Proof.Machine

/-- Settles O11: in `Running` bytes left decide between an answer and the normal end, and after a fault there is no step. -/
theorem stepAnswersUntilTheRunIsOver : Obligations.StepAnswersUntilTheRunIsOver := by
  refine fun s => ⟨⟨fun ⟨t, ht⟩ => ?_, fun ⟨hs, hc⟩ => step_answers hs hc⟩, step_exhausted, step_stopped⟩
  obtain ⟨hs, hc, -⟩ := step_next ht
  exact ⟨hs, hc⟩

/-- Settles O21: the run starts in lockstep and keeps it with the buffer, and its fuel is more than the bytes it has. -/
theorem hostRunReachesAnEnd : Obligations.HostRunReachesAnEnd := by
  intro bs
  have hreset : Lockstep (resetOnto (Memory.ofBytes bs)) := lockstep_resetOnto (ofBytes_wf bs)
  have hlock : Lockstep (run bs) := runFuel_keeps (P := Lockstep) (fun _ _ => step_keeps_lockstep) _ hreset
  have hbuf : (run bs).buf = Memory.ofBytes bs :=
    runFuel_keeps (P := fun s => s.buf = Memory.ofBytes bs) (fun _ _ hs ht => (step_buf ht).trans hs) _ rfl
  have hfuel : (resetOnto (Memory.ofBytes bs)).buf.size < bs.length + 1 := by simp [resetOnto]
  obtain ⟨f, hf⟩ : ∃ f, step (run bs) = .fault f := runFuel_ends fun _ => Nat.lt_of_le_of_lt (Nat.sub_le _ _) hfuel
  exact ⟨⟨f, hf⟩, hbuf, hlock.ended hf⟩

/-- Settles O56, pair by pair along each of the two texts. -/
theorem hexTextLoadsBack : Obligations.HexTextLoadsBack := by
  refine fun bs => ⟨?_, ?_⟩
  · induction bs with
    | nil => rfl
    | cons b bs ih => rw [canonicalHex, List.flatMap_cons, loadHex_hexPair_append, ← canonicalHex, ih, Option.map_some]
  · induction bs using spacedHex.induct with
    | case1 => rfl
    | case2 b => exact loadHex_hexPair_append b []
    | case3 b c bs ih => rw [spacedHex, loadHex_hexPair_append, loadHex_space_cons, ih, Option.map_some]

/-- Settles O57: the digits are there exactly if every character left is one, and pair up exactly if they are evenly many. -/
theorem hexTextIsRejectedExactlyWhenMalformed : Obligations.HexTextIsRejectedExactlyWhenMalformed := by
  intro text
  have hload {bs : List Byte} := loadHex_eq_some (text := text) (bs := bs)
  rw [← exists_hexDigits_withoutSpaces_iff, ← withoutSpaces]
  refine ⟨⟨fun ⟨bs, h⟩ => ?_, fun ⟨⟨vs, hvs⟩, heven⟩ => ?_⟩, fun bs h => ?_⟩
  · obtain ⟨vs, hvs, hbs⟩ := hload.1 h
    exact ⟨⟨vs, hvs⟩, length_of_hexDigits hvs ▸ exists_pairBytes_iff.1 ⟨bs, hbs⟩⟩
  · obtain ⟨bs, hbs⟩ := exists_pairBytes_iff.2 (length_of_hexDigits hvs ▸ heven)
    exact ⟨bs, hload.2 ⟨vs, hvs, hbs⟩⟩
  · obtain ⟨vs, hvs, hbs⟩ := hload.1 h
    exact (length_of_pairBytes hbs).trans (length_of_hexDigits hvs)

/-- Settles O58: lower case keeps each character's digit value and spaces, and removing spaces twice is removing them once. -/
theorem hexTextIgnoresCaseAndSpaces : Obligations.HexTextIgnoresCaseAndSpaces := by
  refine fun text => ⟨?_, ?_⟩
  · rw [loadHex_eq, withoutSpaces_map_toLower, hexDigits_map_toLower, ← loadHex_eq]
  · rw [← withoutSpaces, loadHex_eq, loadHex_eq, withoutSpaces_withoutSpaces]

end Sys2Proof.Machine
end

section
/-! SUPPORT. The taken fault (60_exceptions.md R223, R234): an EXECUTE that ends in an execute fault has raised it at its own entry
state, and DECODE_NEXT has no step after any fault. -/

namespace Sys2Proof.Machine

/-- After a fault there is no DECODE_NEXT (R100). -/
theorem decodeNext_stopped {s : State} (h : s.status ≠ .running) : decodeNext s = .noStep := by
  by_contra hne
  exact h (running_of_decodeNext hne)

/-- An EXECUTE that ends in an execute fault did nothing but raise it: a completion latches none, and the fault of `w` is a decode
fault (R111, R223; log 2). -/
theorem eq_raiseExecute_of_exec {i : Instr} {s t : State} {pos : Nat} {reason : ExecuteReason} (h : exec i s = .next t)
    (hf : t.status = .executeFault pos reason) : t = raiseExecute s reason := by
  cases hr : i.record with
  | some r =>
    obtain ⟨d, v, -, rfl⟩ | ⟨raised, rfl, -⟩ := exec_next hr h
    · exact absurd hf (committed_ne_fault (running_of_exec_next h))
    · cases hf
      rfl
  | none =>
    obtain ⟨p, nxt, rfl⟩ := record_eq_none.1 hr
    rw [exec_w_next h] at hf
    cases hf

end Sys2Proof.Machine
end

section
/-! CERTIFICATES of the statements about the taken faults (60_exceptions.md). -/

namespace Sys2Proof.Machine

/-- Settles O23: the state after an execute fault is the entry state with the fault raised. -/
theorem executeFaultIsPrecise : Obligations.ExecuteFaultIsPrecise := by
  intro i s t pos reason h hf
  obtain rfl := eq_raiseExecute_of_exec h hf
  have hpos : pos = s.pc := by
    cases hf
    rfl
  exact ⟨hpos, takeFault_faultTaken s _, step_stopped nofun⟩

/-- Settles O9: the step is a DECODE_NEXT that raises the Decoder's fault. -/
theorem stepTakesTheDecodeFault : Obligations.StepTakesTheDecodeFault :=
  fun s _ _ hs hc hd => ⟨_, step_of_decode_fault hs hc hd, takeFault_faultTaken s _⟩

/-- Settles O13: each operation requires `Running`, and so does the normal end. -/
theorem faultStateIsTerminal : Obligations.FaultStateIsTerminal := by
  intro s f hf
  have hstopped : (takeFault s f).status ≠ .running := hf
  exact ⟨takeFault_faultTaken s f, step_stopped hstopped, decodeNext_stopped hstopped, exec_stopped hstopped,
    fun ⟨hrunning, _⟩ => hstopped hrunning⟩

end Sys2Proof.Machine
end

section
/-! SUPPORT. A run of a given number of steps (49_run_result_host.md R200, R201): from a state in lockstep, one step for every two
bytes left, and one more, reach its end. -/

namespace Sys2Proof.Machine

/-- A run of `n` steps at most reaches a state without a step, in one of the three ends (R201). -/
def EndsWithin (n : Nat) (s : State) : Prop :=
  ∃ k t, k ≤ n ∧ Host.Core.run core k s = .next t ∧ (∃ f, step t = .fault f) ∧
    (EndedNormally t ∨ EndedInDecodeFault t ∨ EndedInExecuteFault t)

/-- The host's run of one step more is a step, then the run. -/
theorem core_run_succ {s t : State} (h : step s = .next t) (k : Nat) :
    Host.Core.run core (k + 1) s = Host.Core.run core k t := by
  have hcore : core.step s = .next t := h
  simp only [Host.Core.run, hcore]

/-- In lockstep, a state without a step is an end (R201). -/
theorem Lockstep.endsWithin_of_fault {s : State} {f : Fault} (hlock : Lockstep s) (hf : step s = .fault f) (n : Nat) :
    EndsWithin n s :=
  ⟨0, s, Nat.zero_le n, rfl, ⟨f, hf⟩, hlock.ended hf⟩

/-- One step before a state that ends. -/
theorem EndsWithin.of_step {n : Nat} {s t : State} (h : EndsWithin n t) (hstep : step s = .next t) :
    EndsWithin (n + 1) s := by
  obtain ⟨k, u, hk, hrun, hend⟩ := h
  exact ⟨k + 1, u, Nat.succ_le_succ hk, (core_run_succ hstep k).trans hrun, hend⟩

/-- `n` steps are enough where a running state has fewer than `2 * n` bytes left: a step that does not end the run consumes
two or more (R201). -/
theorem Lockstep.endsWithin {n : Nat} {s : State} (hlock : Lockstep s)
    (hleft : s.status = .running → s.buf.size - s.cursor < 2 * n) : EndsWithin n s := by
  induction n generalizing s with
  | zero => exact hlock.endsWithin_of_fault (step_stopped fun hs => Nat.not_lt_zero _ (hleft hs)) 0
  | succ n ih =>
    obtain ⟨t, ht⟩ | ⟨f, hf⟩ := step_next_or_fault s
    · have hlock' : Lockstep t := step_keeps_lockstep hlock ht
      refine (ih hlock' fun hrun => ?_).of_step ht
      obtain ⟨hs, -, -⟩ := step_next ht
      obtain ⟨-, hinside, -⟩ := hlock'
      have hadv := step_cursor_advances ht hrun
      have hbytes := hleft hs
      rw [step_buf ht] at hinside ⊢
      omega
    · exact hlock.endsWithin_of_fault hf _

end Sys2Proof.Machine
end

section
/-! SUPPORT. What a prefix leaves of EXECUTE where it is optional (30_encoding.md R63; 41_execute_common.md R113): two
outcomes that differ in `pc` alone, by the difference of the two lengths, shown for each shared operation and then for every
instruction. -/

namespace Sys2Proof.Machine

/-- `o'` answers wherever `o` does, with the same registers, `STATUS`, cursor and buffer; `pc` has moved by `len'` in
place of `len` if the instruction completed, and is the same if it faulted. -/
def SameUpToLength (len len' : Nat) (o o' : Outcome) : Prop :=
  ∀ t, o = .next t → ∃ u, o' = .next u ∧ (∀ r, u.reg r = t.reg r) ∧ u.status = t.status ∧ u.cursor = t.cursor ∧
    u.buf = t.buf ∧ (t.status = .running → t.pc + len' = u.pc + len) ∧ (t.status ≠ .running → t.pc = u.pc)

theorem SameUpToLength.refl {len : Nat} {o : Outcome} : SameUpToLength len len o o :=
  fun t h => ⟨t, h, fun _ => rfl, rfl, rfl, rfl, fun _ => rfl, fun _ => rfl⟩

/-- An execute fault leaves `pc`, whatever the length (R223). -/
theorem SameUpToLength.raiseExecute {len len' : Nat} {s : State} {reason : ExecuteReason} :
    SameUpToLength len len' (.next (raiseExecute s reason)) (.next (raiseExecute s reason)) := by
  rintro t ⟨⟩
  exact ⟨_, rfl, fun _ => rfl, rfl, rfl, rfl, nofun, fun _ => rfl⟩

section Running

variable {s : State} {len len' : Nat}

theorem SameUpToLength.whenRunning {k k' : Outcome} (h : s.status = .running → SameUpToLength len len' k k') :
    SameUpToLength len len' (whenRunning s k) (whenRunning s k') := by
  intro t ht
  obtain ⟨hs, hk⟩ := whenRunning_next ht
  rw [whenRunning_running hs]
  exact h hs t hk

theorem SameUpToLength.unsupportedSubOpcode :
    SameUpToLength len len' (unsupportedSubOpcode s) (unsupportedSubOpcode s) :=
  .whenRunning fun _ => .raiseExecute

theorem SameUpToLength.withRegister {k k' : Reg → Outcome} {c : BitVec 3}
    (h : ∀ r, SameUpToLength len len' (k r) (k' r)) :
    SameUpToLength len len' (withRegister s c k) (withRegister s c k') := by
  cases hc : regOf c with
  | some r =>
    rw [withRegister_some hc, withRegister_some hc]
    exact h r
  | none =>
    rw [withRegister_none hc, withRegister_none hc]
    exact .raiseExecute

/-- Two commits of one value (R111). -/
theorem SameUpToLength.commit (hs : s.status = .running) {d : Reg} {v : Word} :
    SameUpToLength len len' (commit s d v len) (commit s d v len') := by
  intro t ht
  obtain rfl := commit_next ht
  refine ⟨_, rfl, fun _ => rfl, rfl, rfl, rfl, fun _ => ?_, fun hstop => absurd hs hstop⟩
  simp only [committed_pc]
  omega

theorem SameUpToLength.commitChecked (hs : s.status = .running) {d : Reg} {v : Option Word} :
    SameUpToLength len len' (commitChecked s d v len) (commitChecked s d v len') := by
  cases v with
  | some w => exact .commit hs
  | none => exact .raiseExecute

theorem SameUpToLength.plainOM {a b : BitVec 3} {f : Word → Word → Word} :
    SameUpToLength len len' (plainOM s a b len f) (plainOM s a b len' f) :=
  .whenRunning fun hs => .withRegister fun _ => .withRegister fun _ => .commit hs

theorem SameUpToLength.checkedOM {a b : BitVec 3} {f : Word → Word → Option Word} :
    SameUpToLength len len' (checkedOM s a b len f) (checkedOM s a b len' f) :=
  .whenRunning fun hs => .withRegister fun _ => .withRegister fun _ => .commitChecked hs

end Running

/-- No instruction looks at its optional prefix but for the length (R63, R113, by D12). -/
theorem exec_withoutPrefix (i : Instr) (s : State) :
    SameUpToLength i.length (withoutPrefix i).length (exec i s) (exec (withoutPrefix i) s) := by
  cases i with
  | w | loadiA | loadiC | loadiD | loadiB | loadi64A | loadi64C | loadi64D | loadi64B => exact .refl
  | movMR | movRM => exact .plainOM (f := fun _ b => aluPass b)
  | xor => exact .plainOM
  | add | sub => exact .checkedOM
  | addi | subi => exact .whenRunning fun hs => .withRegister fun _ => .commitChecked hs
  | adda | suba => exact .whenRunning fun hs => .commitChecked hs
  | storei => exact .whenRunning fun hs => .withRegister fun _ => .commit hs
  | reserved81s1 | reserved81s2 | reserved81s3 | reserved81s4 | reserved81s6 | reserved81s7 | reservedC7s1 | reservedC7s2
  | reservedC7s3 | reservedC7s4 | reservedC7s5 | reservedC7s6 | reservedC7s7 => exact .unsupportedSubOpcode

end Sys2Proof.Machine
end

section
/-! SUPPORT. The wrapped sum and difference as integers (41_execute_common.md R117), and the checked commit of an exact
integer with both its outcomes (R116, R127). -/

namespace Sys2Proof.Machine

/-- The wrapped sum is a multiple of 2^64 away from the exact one. -/
theorem exists_toInt_add (a b : Word) : ∃ k : Int, (a + b).toInt = a.toInt + b.toInt + 2 ^ 64 * k := by
  obtain ⟨k, hk⟩ : ((2 ^ 64 : Nat) : Int) ∣ (a + b).toInt - (a.toInt + b.toInt) := by
    rw [BitVec.toInt_add]
    exact Int.dvd_bmod_sub_self
  exact ⟨k, by omega⟩

/-- The wrapped difference is a multiple of 2^64 away from the exact one. -/
theorem exists_toInt_sub (a b : Word) : ∃ k : Int, (a - b).toInt = a.toInt - b.toInt + 2 ^ 64 * k := by
  obtain ⟨k, hk⟩ : ((2 ^ 64 : Nat) : Int) ∣ (a - b).toInt - (a.toInt - b.toInt) := by
    rw [BitVec.toInt_sub]
    exact Int.dvd_bmod_sub_self
  exact ⟨k, by omega⟩

/-- A checked commit of an exact integer faults exactly outside `S64`, with nothing else changed, and completes with that
integer inside it (R116). -/
theorem commitChecked_exact64_decides {s : State} (hs : s.status = .running) (d : Reg) (z : Int) (len : Nat) :
    ∃ t, commitChecked s d (exact64 z) len = .next t ∧
      (t.status = .executeFault s.pc .arithmeticOverflow ↔ z < min64 ∨ max64 < z) ∧
      (z < min64 ∨ max64 < z → FaultTaken s t (.executeFault s.pc .arithmeticOverflow)) ∧
      (¬ (z < min64 ∨ max64 < z) →
        t.status = .running ∧ (t.reg d).toInt = z ∧ Completed s t d (t.reg d) len) := by
  by_cases hout : z < min64 ∨ max64 < z
  · obtain ⟨t, ht, hfault, -⟩ := commitChecked_exact64_faults s d len hout
    exact ⟨t, ht, iff_of_true hfault.1 hout, fun _ => hfault, fun hin => absurd hout hin⟩
  · obtain ⟨t, v, ht, hv, hdone⟩ := commitChecked_exact64_completes s d len (z := z) (by omega) (by omega)
    have ⟨hreg, _, _, _, hstatus, _⟩ := hdone
    subst hreg
    have hrun : t.status = .running := hstatus.trans hs
    exact ⟨t, ht, iff_of_false (by simp [hrun]) hout, fun h => absurd h hout, fun _ => ⟨hrun, hv, hdone⟩⟩

end Sys2Proof.Machine
end

section
/-! SUPPORT. A word that fits 32 bits is the sign extension of its low half (49_run_result_host.md R205; 41_execute_common.md
R119). -/

namespace Sys2Proof.Machine

/-- The bits 31 to 63 of a word are all equal exactly if it is a sign extension. -/
theorem exists_sext64_iff_bits {x : Word} :
    (∃ v, x = sext64 v) ↔ ∀ k, 31 ≤ k → k < 64 → x.getLsbD k = x.getLsbD 63 := by
  constructor
  · rintro ⟨v, rfl⟩ k hk hk'
    rw [sext64_getLsbD_high v (k := 63) (by decide) (by decide)]
    obtain rfl | hk := Nat.eq_or_lt_of_le hk
    · exact sext64_getLsbD_low v (by decide)
    · exact sext64_getLsbD_high v hk hk'
  · intro h
    refine ⟨x.setWidth 32, BitVec.eq_of_getLsbD_eq fun k hk => ?_⟩
    obtain hlow | hhigh := Nat.lt_or_ge k 32
    · rw [sext64_getLsbD_low _ hlow, BitVec.getLsbD_setWidth, decide_eq_true hlow, Bool.true_and]
    · rw [sext64_getLsbD_high _ hhigh hk, BitVec.getLsbD_setWidth, decide_eq_true (by decide), Bool.true_and,
        h k (by omega) hk, h 31 (by decide) (by decide)]

/-- A signed 32-bit number's value is in `S32` (R8). -/
theorem imm_toInt_bounds (v : BitVec 32) : min32 ≤ v.toInt ∧ v.toInt ≤ max32 :=
  ⟨BitVec.le_toInt v, Int.le_sub_one_of_lt BitVec.toInt_lt⟩

/-- An integer in `S32` is the value of its 32 bits. -/
theorem toInt_ofInt_32 {z : Int} (hlo : min32 ≤ z) (hhi : z ≤ max32) : (BitVec.ofInt 32 z).toInt = z :=
  BitVec.toInt_ofInt_eq_self (by decide) hlo (Int.lt_of_le_sub_one hhi)

/-- A word is in `S32` exactly if it is a sign extension. -/
theorem exists_sext64_iff_range {x : Word} : (∃ v, x = sext64 v) ↔ min32 ≤ x.toInt ∧ x.toInt ≤ max32 := by
  constructor
  · rintro ⟨v, rfl⟩
    rw [sext64_toInt]
    exact imm_toInt_bounds v
  · rintro ⟨hlo, hhi⟩
    exact ⟨BitVec.ofInt 32 x.toInt, BitVec.eq_of_toInt_eq (by rw [sext64_toInt, toInt_ofInt_32 hlo hhi])⟩

/-- RESULT is a value exactly if A is in `S32`, and the value is A's (R205). -/
theorem result_eq_value {s : State} {v : BitVec 32} :
    result s = .value v ↔ (min32 ≤ (s.reg .A).toInt ∧ (s.reg .A).toInt ≤ max32) ∧ v = BitVec.ofInt 32 (s.reg .A).toInt := by
  unfold result
  split
  · next hin => rw [Result.value.injEq, and_iff_right hin, eq_comm]
  · next hout => exact iff_of_false nofun fun h => hout h.1

/-- RESULT is the tag exactly if A is outside `S32` (R206). -/
theorem result_eq_outOfRange {s : State} :
    result s = .outOfRange ↔ ¬ (min32 ≤ (s.reg .A).toInt ∧ (s.reg .A).toInt ≤ max32) := by
  unfold result
  split
  · next hin => exact iff_of_false nofun (not_not_intro hin)
  · next hout => exact iff_of_true rfl hout

end Sys2Proof.Machine
end

section
/-! SUPPORT. The shapes of the records that instructions have (10_state.md R31), and the refusal of every other record with
a mapped opcode (41_execute_common.md R126). -/

namespace Sys2Proof

/-- The fields of the records of R31, by format. -/
inductive Record.Shaped : Record → Prop where
  | oi32 (d : Reg) (v : BitVec 32) (len : Nat) : Shaped (recordOI32 d v len)
  | oi64 (d : Reg) (v : BitVec 64) (len : Nat) : Shaped (recordOI64 d v len)
  | om (k : OMOp) (reg rm : BitVec 3) (len : Nat) : Shaped (recordOM k reg rm len)
  | omi (k : OMIOp) (sel rm : BitVec 3) (v : BitVec 32) (len : Nat) : Shaped (recordOMI k sel rm v len)
  | ai (k : AIOp) (v : BitVec 32) (len : Nat) : Shaped (recordAI k v len)

/-- The record of an instruction has the shape of its format (R31). -/
theorem shaped_of_record {i : Instr} {r : Record} (h : i.record = some r) : r.Shaped := by
  cases i.byFormat with
  | oi32 d v => cases (record_loadiOf d v).symm.trans h; exact .oi32 ..
  | oi64 p d v => cases (record_loadi64Of p d v).symm.trans h; exact .oi64 ..
  | om k pre m hm => cases (record_omInstr k pre m).symm.trans h; exact .om ..
  | omi k pre m v hm => cases (record_omiInstr k pre m v).symm.trans h; exact .omi ..
  | ai k pre v => cases (record_aiInstr k pre v).symm.trans h; exact .ai ..
  | w p nxt => cases h

/-- Two opcodes with one byte are the same (R70). -/
theorem Opcode.byte_inj {o o' : Opcode} (h : o.byte = o'.byte) : o = o' := by
  have hsome : some o = some o' := by rw [← opcodeOf_byte o, h, opcodeOf_byte]
  exact Option.some.inj hsome

/-- Only an opcode that is not mapped makes a record read as such (R122): for a mapped one, every branch of the reading is an
instruction or malformed. -/
theorem opcodeOf_of_reading_unmapped {r : Record} (h : r.reading = .unmapped) : opcodeOf r.opcode = none := by
  unfold Record.reading at h
  split at h
  · assumption
  all_goals (repeat' split at h) <;> cases h

/-- A record with a mapped opcode that no well-formed instruction has is read as malformed (R126). -/
theorem reading_malformed {r : Record} (hop : opcodeOf r.opcode ≠ none)
    (hno : ∀ i : Instr, i.wf = true → i.record ≠ some r) : r.reading = .malformed := by
  cases h : r.reading with
  | instr i =>
    obtain ⟨hwf, hr⟩ := reading_instr h
    exact absurd hr (hno i hwf)
  | unmapped => exact absurd (opcodeOf_of_reading_unmapped h) hop
  | malformed => rfl

end Sys2Proof

namespace Sys2Proof.Machine

section Refused

variable {r : Record} {s : State} (hs : s.status = .running)
include hs

/-- In `Running` a record with a mapped opcode that no well-formed instruction has is refused (R126). -/
theorem executeRecord_refused (hop : opcodeOf r.opcode ≠ none)
    (hno : ∀ i : Instr, i.wf = true → i.record ≠ some r) : executeRecord r s = .refused .malformedRecord := by
  rw [executeRecord, whenRunning_running hs, reading_malformed hop hno]

/-- In `Running` a record with an opcode's byte but not the shape of a format is refused (R31, R126). -/
theorem executeRecord_refused_of_shape {o : Opcode} (ho : r.opcode = o.byte) (hshape : ¬ r.Shaped) :
    executeRecord r s = .refused .malformedRecord :=
  executeRecord_refused hs (by simp [ho]) fun _ _ hr => hshape (shaped_of_record hr)

end Refused

end Sys2Proof.Machine

namespace Sys2Proof

section Shapes

variable {r : Record} (h : r.Shaped)
include h

/-- A shaped record of an opcode that has an operand byte holds a direct one. -/
theorem Record.Shaped.direct_operand {o : Opcode} (ho : r.opcode = o.byte) (hop : o.HasOperand) :
    ∃ m, r.m = some m ∧ modField m = modDirect := by
  cases h with
  | om k reg rm len => exact ⟨_, rfl, modField_operandByte reg rm⟩
  | omi k sel rm v len => exact ⟨_, rfl, modField_operandByte sel rm⟩
  | oi32 | oi64 | ai =>
    cases Opcode.byte_inj ho
    obtain ⟨k, hk⟩ | ⟨k, hk⟩ := hop <;> cases hk

/-- A shaped record of format `OMI` has an imm32. -/
theorem Record.Shaped.omi_immediate {k : OMIOp} (ho : r.opcode = (Opcode.omi k).byte) : ∃ v, r.imm32 = some v := by
  cases h with
  | omi k sel rm v len => exact ⟨v, rfl⟩
  | oi32 | oi64 | om | ai => cases Opcode.byte_inj ho

/-- A shaped record of a load has one of the two immediates, and not both. -/
theorem Record.Shaped.oi_immediate {d : Reg} (ho : r.opcode = (Opcode.oi d).byte) :
    r.imm32.isSome ≠ r.imm64.isSome := by
  cases h with
  | oi32 | oi64 => exact nofun
  | om | omi | ai => cases Opcode.byte_inj ho

end Shapes

end Sys2Proof
end

section
/-! SUPPORT. DECODE_NEXT after a reset (40_decoder.md R98, R104; 70_reset_and_hazards.md R250): it reads the host's bytes from
the first one on. -/

namespace Sys2Proof.Machine

/-- After a reset DECODE_NEXT sees the first ten of the host's bytes (R60, R250). -/
theorem window_resetOnto (bs : List Byte) : window (resetOnto (Memory.ofBytes bs)) = bs.take maxLength := by
  refine List.ext_getElem? fun k => ?_
  obtain hk | hk := Nat.lt_or_ge k maxLength
  · rw [window_getElem? _ k hk, List.getElem?_take_of_lt hk, State.readByte]
    exact (ofBytes_read bs _).trans (congrArg (bs[·]?) (Nat.zero_add k))
  · rw [List.getElem?_eq_none (by rw [window_length]; omega), List.getElem?_eq_none (by rw [List.length_take]; omega)]

theorem decode_window_resetOnto (bs : List Byte) : decode (window (resetOnto (Memory.ofBytes bs))) = decode bs :=
  (congrArg decode (window_resetOnto bs)).trans (decodeLooksAtTenBytes bs)

/-- The record of the first instruction of a list of bytes. -/
def firstRecord (bs : List Byte) : Option Record :=
  match decode bs with
  | .instr i => i.record
  | .fault _ _ => none

/-- The fault that the first bytes of a list are, with its offset: the decoder's own, or that of `w` (log 2). -/
def firstFault (bs : List Byte) : Option (Nat × DecodeReason) :=
  match decode bs with
  | .instr (.w _ _) => some (1, .unknownOpcode)
  | .instr _ => none
  | .fault off reason => some (off, reason)

theorem decode_of_firstRecord {bs : List Byte} {r : Record} (h : firstRecord bs = some r) :
    ∃ i, decode bs = .instr i ∧ i.record = some r := by
  unfold firstRecord at h
  split at h
  · exact ⟨_, ‹_›, h⟩
  · cases h

theorem decode_of_firstFault {bs : List Byte} {off : Nat} {reason : DecodeReason}
    (h : firstFault bs = some (off, reason)) :
    (∃ p nxt, decode bs = .instr (.w p nxt) ∧ off = 1 ∧ reason = .unknownOpcode) ∨ decode bs = .fault off reason := by
  unfold firstFault at h
  split at h
  · cases h; exact .inl ⟨_, _, ‹_›, rfl, rfl⟩
  · cases h
  · cases h; exact .inr ‹_›

/-- After a reset DECODE_NEXT answers the first record, with the cursor after it (R97, R250). -/
theorem decodeNext_resetOnto_record {bs : List Byte} {r : Record} (h : firstRecord bs = some r) :
    ∃ i t, decodeNext (resetOnto (Memory.ofBytes bs)) = .decoded r i t ∧ t.cursor = r.length := by
  obtain ⟨i, hd, hr⟩ := decode_of_firstRecord h
  refine ⟨i, _, decodeNext_record rfl ((decode_window_resetOnto bs).trans hd) hr, ?_⟩
  rw [record_length hr]
  exact Nat.zero_add i.length

/-- After a reset DECODE_NEXT takes the first fault, at its offset, with nothing else changed (R96, R222, R250). -/
theorem decodeNext_resetOnto_fault {bs : List Byte} {off : Nat} {reason : DecodeReason}
    (h : firstFault bs = some (off, reason)) :
    ∃ t, decodeNext (resetOnto (Memory.ofBytes bs)) = .faulted t ∧
      FaultTaken (resetOnto (Memory.ofBytes bs)) t (.decodeFault off reason) := by
  have hwin := decode_window_resetOnto bs
  obtain ⟨p, nxt, hd, rfl, rfl⟩ | hd := decode_of_firstFault h
  · exact ⟨_, decodeNext_w rfl (hwin.trans hd), takeFault_faultTaken _ _⟩
  · have hoff : (resetOnto (Memory.ofBytes bs)).cursor + off = off := Nat.zero_add off
    refine ⟨_, decodeNext_fault rfl (hwin.trans hd), ?_⟩
    rw [hoff]
    exact takeFault_faultTaken _ _

end Sys2Proof.Machine
end

section
/-! CERTIFICATES of the statements about reset, the lockstep invariant and the end of a run (49_run_result_host.md,
70_reset_and_hazards.md). -/

namespace Sys2Proof.Machine

/-- Settles O18: both buffers have the canonical form. -/
theorem resetMeetsLockstep : Obligations.ResetMeetsLockstep :=
  ⟨lockstep_resetOnto empty_wf, fun bs => lockstep_resetOnto (ofBytes_wf bs)⟩

/-- Settles O53, register by register; the buffer of no bytes is the empty one. -/
theorem resetLeavesTheStatedValues : Obligations.ResetLeavesTheStatedValues := by
  refine ⟨fun buf => ⟨fun r => ?_, rfl, rfl, rfl, rfl⟩, rfl⟩
  cases r <;> rfl

/-- Settles O19, from what a step can do. -/
theorem stepKeepsLockstep : Obligations.StepKeepsLockstep :=
  fun _ _ => step_keeps_lockstep

/-- Settles O20: one step more than half the bytes left is enough. -/
theorem everyRunEnds : Obligations.EveryRunEnds :=
  fun s hlock => hlock.endsWithin (n := (s.buf.size - s.cursor) / 2 + 1) fun _ => by omega

/-- Settles O17: the buffer is the same data. -/
theorem stepNeverWritesTheBuffer : Obligations.StepNeverWritesTheBuffer := by
  intro s t hstep
  have hbuf : t.buf = s.buf := step_buf hstep
  exact ⟨congrArg Memory.size hbuf, fun a => congrArg (Memory.read · a) hbuf⟩

/-- Settles O55: a word fits 32 bits exactly if it is a sign extension, which is the criterion on its bits. -/
theorem resultIsAOrOutOfRange : Obligations.ResultIsAOrOutOfRange := by
  refine ⟨fun s v h => ?_, fun s => ?_, fun s => ?_, fun s t h => by rw [result, result, h]⟩
  · obtain ⟨⟨hlo, hhi⟩, rfl⟩ := result_eq_value.1 h
    exact toInt_ofInt_32 hlo hhi
  · rw [result_eq_outOfRange, not_and_or, Int.not_le, Int.not_le]
  · rw [← exists_sext64_iff_bits, exists_sext64_iff_range]
    exact ⟨fun ⟨_, h⟩ => (result_eq_value.1 h).1, fun hin => ⟨_, result_eq_value.2 ⟨hin, rfl⟩⟩⟩

end Sys2Proof.Machine
end

section
/-! CERTIFICATES of the statements about the optional prefix, the overflow rule, the laws of R127 and the records
that are refused (41_execute_common.md). -/

namespace Sys2Proof.Machine

/-- Settles O24, from the shared operation that each instruction is. -/
theorem optionalPrefixChangesOnlyThePc : Obligations.OptionalPrefixChangesOnlyThePc :=
  exec_withoutPrefix

/-- Settles O43: the wrapped result is a multiple of 2^64 away from the exact one, and in the range of a word. -/
theorem strictSignRuleMissesTwoCases : Obligations.StrictSignRuleMissesTwoCases := by
  intro a b
  have ha := word_toInt_bounds a
  have hb := word_toInt_bounds b
  constructor
  · obtain ⟨k, hk⟩ := exists_toInt_add a b
    have hsum := word_toInt_bounds (a + b)
    simp only [aluAdd, exact64_eq_none, min64, max64]
    omega
  · obtain ⟨k, hk⟩ := exists_toInt_sub a b
    have hdiff := word_toInt_bounds (a - b)
    simp only [aluSub, exact64_eq_none, min64, max64]
    omega

/-- Settles O45: the exact sum leaves `S64` exactly where twice the value does. -/
theorem doublingFaultsExactlyOutsideTheRange : Obligations.DoublingFaultsExactlyOutsideTheRange := by
  intro pre c d s hs hc
  have hout : ((s.reg d).toInt + (s.reg d).toInt < min64 ∨ max64 < (s.reg d).toInt + (s.reg d).toInt) ↔
      (2 ^ 62 ≤ (s.reg d).toInt ∨ (s.reg d).toInt < -(2 ^ 62)) := by
    simp only [min64, max64]
    omega
  obtain ⟨t, ht, hiff, hfault, hdone⟩ := commitChecked_exact64_decides hs d ((s.reg d).toInt + (s.reg d).toInt)
    (lengthWith pre 2)
  refine ⟨t, (exec_add hs hc hc).trans ht, hiff.trans hout, fun h => hfault (hiff.1 h), fun hlo hhi => ?_⟩
  obtain ⟨hrun, hval, hcompleted⟩ := hdone (mt hout.1 (by omega))
  exact ⟨hrun, hval.trans (Int.two_mul _).symm, hcompleted⟩

/-- Settles O47: the exact difference is 2^63 more than the minuend, in `S64` exactly if that is negative. -/
theorem subtractingMin64FaultsFromNonNegative : Obligations.SubtractingMin64FaultsFromNonNegative := by
  intro pre reg rm q r s hs hq hr hmin
  have hout : ((s.reg r).toInt - min64 < min64 ∨ max64 < (s.reg r).toInt - min64) ↔ 0 ≤ (s.reg r).toInt := by
    have hbounds := word_toInt_bounds (s.reg r)
    simp only [min64, max64]
    omega
  have hexec := exec_sub (pre := pre) hs hq hr
  rw [hmin] at hexec
  obtain ⟨t, ht, hiff, hfault, hdone⟩ := commitChecked_exact64_decides hs r ((s.reg r).toInt - min64) (lengthWith pre 2)
  refine ⟨t, hexec.trans ht, hiff.trans hout, fun h => hfault (hout.2 h), fun hneg => ?_⟩
  obtain ⟨hrun, hval, hcompleted⟩ := hdone (mt hout.1 (Int.not_le.2 hneg))
  exact ⟨hrun, hval, hcompleted⟩

/-- Settles O46: the exact difference of a number and itself is 0, and a word cancels itself. -/
theorem selfSubtractAndSelfXorClear : Obligations.SelfSubtractAndSelfXorClear := by
  refine fun pre c d s hs hc => ⟨⟨committed s d 0 (lengthWith pre 2), ?_, committed_completed ..⟩,
    committed s d 0 (lengthWith pre 2), ?_, committed_completed ..⟩
  · rw [exec_sub hs hc hc, Int.sub_self]
    rfl
  · rw [exec_xor hs hc hc, BitVec.xor_self]
    rfl

/-- Settles O51: no well-formed instruction's record has the fields of the examples. -/
theorem malformedRecordsAreRefused : Obligations.MalformedRecordsAreRefused := by
  refine fun r s hs => ⟨executeRecord_refused hs, fun hop himm => ?_, fun hop hm => ?_, fun hop himm => ?_,
    fun m hop hm hmod => ?_⟩
  · refine executeRecord_refused_of_shape hs (o := .omi .group1) hop fun h => ?_
    obtain ⟨v, hv⟩ := h.omi_immediate (k := .group1) hop
    cases himm.symm.trans hv
  · refine executeRecord_refused_of_shape hs (o := .om .movMR) hop fun h => ?_
    obtain ⟨m, hm', -⟩ := h.direct_operand (o := .om .movMR) hop (.inl ⟨_, rfl⟩)
    cases hm.symm.trans hm'
  · exact executeRecord_refused_of_shape hs (o := .oi .A) hop fun h => h.oi_immediate (d := .A) hop himm
  · obtain ⟨o, ho, hoperand⟩ : ∃ o : Opcode, r.opcode = o.byte ∧ o.HasOperand :=
      hop.elim (fun h => ⟨.om .movMR, h, .inl ⟨_, rfl⟩⟩) fun h => ⟨.omi .group1, h, .inr ⟨_, rfl⟩⟩
    refine executeRecord_refused_of_shape hs ho fun h => ?_
    obtain ⟨m', hm', hdirect⟩ := h.direct_operand ho hoperand
    cases hm.symm.trans hm'
    exact hmod hdirect

end Sys2Proof.Machine
end

section
/-! CERTIFICATES of the statements about the moves, the immediate store and the Decoder's examples (40_decoder.md,
43_reg_move.md, 47_store_immediate.md). -/

namespace Sys2Proof.Machine

/-- Settles O29: each move commits the word of its source. -/
theorem movesComplete : Obligations.MovesComplete :=
  fun _ _ _ _ _ _ hs hq hr => ⟨⟨_, exec_movMR hs hq hr, committed_completed ..⟩,
    _, exec_movRM hs hq hr, committed_completed ..⟩

/-- Settles O35: the store commits the sign-extended immediate. -/
theorem storeiCompletes : Obligations.StoreiCompletes :=
  fun _ _ imm r s hs hr => ⟨committed s r (sext64 imm) _, (whenRunning_running hs _).trans (withRegister_some hr _),
    committed_completed ..⟩

/-- Settles O48: the two are one operation on the same two codes, and one format. -/
theorem moveHasTwoEncodings : Obligations.MoveHasTwoEncodings := by
  refine fun pre a b s => ⟨rfl, ?_⟩
  rw [encode, encode, Laws.encodeOM_size, Laws.encodeOM_size]

/-- Settles O60, by evaluating the Decoder on the bytes of each row. -/
theorem decoderAnswersTheSpecsExamples : Obligations.DecoderAnswersTheSpecsExamples := by
  refine ⟨fun p hp => decodeNext_resetOnto_record ?_, fun p hp => decodeNext_resetOnto_fault ?_⟩
  · revert p
    decide
  · revert p
    decide

end Sys2Proof.Machine
end
